-- ==== Sys2Proof/Word.lean ====
section
/-! DEFINITION. The unit of FDEC's data: the byte (00_scope.md R9). -/

namespace Sys2Proof

/-- A byte: 8 bits, an unsigned value 0 to 255, bit 0 the least significant (R9). -/
abbrev Byte := BitVec 8

end Sys2Proof
end

