-- ==== Sys2Proof/Syntax.lean ====
section
/-! DEFINITION. The syntax of FDEC: one constructor of `Instr` per row of `spec/opcode_table.json`
(30_encoding.md R111, R112, R90, R95, R96, R114), the five host events (20_memory.md R62) and the
selectors they name. -/

namespace Sys2Proof

/-- The five byte arrays, each an address space of its own (R40, R60). -/
inductive Space
  | rxbuf
  | encPay
  | txbuf
  | decPay
  | cfgRec
  deriving DecidableEq, Repr

/-- Which of the two formats of R114 a row has: the byte written to `OP`, or a wire frame. -/
inductive Format
  | op8
  | frame
  deriving DecidableEq, Repr

/-- The thirteen named request codes (R95). -/
inductive ReqCode
  | getInfo | sendKbGeneral | sendKbMedia | sendMsAbs | sendMsRel | sendHid | readHid
  | getParaCfg | setParaCfg | getUsbString | setUsbString | setDefaultCfg | reset
  deriving DecidableEq, Repr

/-- The fifteen named response codes: the thirteen paired ones, `UNKNOWN` and `ERROR` (R96). -/
inductive RspCode
  | getInfo | sendKbGeneral | sendKbMedia | sendMsAbs | sendMsRel | sendHid | readHid
  | getParaCfg | setParaCfg | getUsbString | setUsbString | setDefaultCfg | reset
  | unknown | error
  deriving DecidableEq, Repr

/-- What a frame carries after its command byte (R90): byte 4, the payload bytes and the last byte.
The last byte is the one that arrived, right or wrong: R114 classifies a frame by its bytes 0 to 3
alone, and the check of the last byte is `DECODE`'s (R134). -/
structure FrameBody where
  len     : Byte
  payload : List Byte
  sum     : Byte
  deriving DecidableEq, Repr

/-- The 37 rows of the opcode table. The first eight have format `op8`, the others format `frame`. -/
inductive Instr
  | clr
  | cksum
  | encode
  | decode
  | find
  | tohost
  | towire
  /-- `RESERVED_OP`: a code 0x07 to 0xFF written to `OP` (R112, R187). -/
  | reservedOp (code : Byte)
  /-- `FRAME`: a frame whose command byte no other row names (R90, R99). -/
  | frame (cmd : Byte) (b : FrameBody)
  | reqGetInfo (b : FrameBody)
  | reqSendKbGeneral (b : FrameBody)
  | reqSendKbMedia (b : FrameBody)
  | reqSendMsAbs (b : FrameBody)
  | reqSendMsRel (b : FrameBody)
  | reqSendHid (b : FrameBody)
  | reqReadHid (b : FrameBody)
  | reqGetParaCfg (b : FrameBody)
  | reqSetParaCfg (b : FrameBody)
  | reqGetUsbString (b : FrameBody)
  | reqSetUsbString (b : FrameBody)
  | reqSetDefaultCfg (b : FrameBody)
  | reqReset (b : FrameBody)
  | rspGetInfo (b : FrameBody)
  | rspSendKbGeneral (b : FrameBody)
  | rspSendKbMedia (b : FrameBody)
  | rspSendMsAbs (b : FrameBody)
  | rspSendMsRel (b : FrameBody)
  | rspSendHid (b : FrameBody)
  | rspReadHid (b : FrameBody)
  | rspGetParaCfg (b : FrameBody)
  | rspSetParaCfg (b : FrameBody)
  | rspGetUsbString (b : FrameBody)
  | rspSetUsbString (b : FrameBody)
  | rspSetDefaultCfg (b : FrameBody)
  | rspReset (b : FrameBody)
  | rspUnknown (b : FrameBody)
  | rspError (b : FrameBody)
  deriving DecidableEq, Repr

/-- The host's alphabet (R62): exactly five events, each indivisible. Register numbers, indices and
written values are the host's numbers, so they are natural numbers. -/
inductive HostEvent
  | rdReg (n : Nat)
  | wrReg (n v : Nat)
  | memRead (sp : Space) (i : Nat)
  | memWrite (sp : Space) (i v : Nat)
  | reset
  deriving DecidableEq, Repr

/-- What the outside does next: one host event, or the notation `PUSH b0 b1 ...` of R113, which is
that many `WrReg(RXPUSH, b)` events left to right, run here as one step (log 2). -/
inductive Input
  | event (e : HostEvent)
  | push (bytes : List Byte)
  deriving DecidableEq, Repr

end Sys2Proof
end

