-- ==== Sys2Proof/Machine/Codes.lean ====
section
/-! DEFINITION. The command codes that ride in byte 3 of a frame (30_encoding.md R95, R96) and the
command byte of each instruction of format `frame` (R114). -/

namespace Sys2Proof

/-- The code of a named request (R95). -/
def ReqCode.code : ReqCode → Byte
  | .getInfo => 0x01#8
  | .sendKbGeneral => 0x02#8
  | .sendKbMedia => 0x03#8
  | .sendMsAbs => 0x04#8
  | .sendMsRel => 0x05#8
  | .sendHid => 0x06#8
  | .readHid => 0x07#8
  | .getParaCfg => 0x08#8
  | .setParaCfg => 0x09#8
  | .getUsbString => 0x0A#8
  | .setUsbString => 0x0B#8
  | .setDefaultCfg => 0x0C#8
  | .reset => 0x0F#8

/-- The code of a named response (R96). -/
def RspCode.code : RspCode → Byte
  | .getInfo => 0x81#8
  | .sendKbGeneral => 0x82#8
  | .sendKbMedia => 0x83#8
  | .sendMsAbs => 0x84#8
  | .sendMsRel => 0x85#8
  | .sendHid => 0x86#8
  | .readHid => 0x87#8
  | .getParaCfg => 0x88#8
  | .setParaCfg => 0x89#8
  | .getUsbString => 0x8A#8
  | .setUsbString => 0x8B#8
  | .setDefaultCfg => 0x8C#8
  | .reset => 0x8F#8
  | .unknown => 0x90#8
  | .error => 0xC0#8

/-- The response paired with a request (R95, R96). -/
def ReqCode.response : ReqCode → RspCode
  | .getInfo => .getInfo
  | .sendKbGeneral => .sendKbGeneral
  | .sendKbMedia => .sendKbMedia
  | .sendMsAbs => .sendMsAbs
  | .sendMsRel => .sendMsRel
  | .sendHid => .sendHid
  | .readHid => .readHid
  | .getParaCfg => .getParaCfg
  | .setParaCfg => .setParaCfg
  | .getUsbString => .getUsbString
  | .setUsbString => .setUsbString
  | .setDefaultCfg => .setDefaultCfg
  | .reset => .reset

/-- The named requests in the order of R95's table. -/
def ReqCode.all : List ReqCode :=
  [.getInfo, .sendKbGeneral, .sendKbMedia, .sendMsAbs, .sendMsRel, .sendHid, .readHid,
   .getParaCfg, .setParaCfg, .getUsbString, .setUsbString, .setDefaultCfg, .reset]

/-- The named responses in the order of R96. -/
def RspCode.all : List RspCode :=
  [.getInfo, .sendKbGeneral, .sendKbMedia, .sendMsAbs, .sendMsRel, .sendHid, .readHid,
   .getParaCfg, .setParaCfg, .getUsbString, .setUsbString, .setDefaultCfg, .reset,
   .unknown, .error]

/-- The request a command byte names, if any (R95). -/
def ReqCode.ofByte (c : Byte) : Option ReqCode := ReqCode.all.find? fun r => r.code == c

/-- The response a command byte names, if any (R96). -/
def RspCode.ofByte (c : Byte) : Option RspCode := RspCode.all.find? fun r => r.code == c

/-- No row of the table but `FRAME` itself names this command byte. -/
def unnamedCommand (c : Byte) : Bool :=
  (ReqCode.ofByte c).isNone && (RspCode.ofByte c).isNone

/-- The command byte and the body of an instruction of format `frame`. -/
def Instr.frameParts : Instr → Option (Byte × FrameBody)
  | .clr => none
  | .cksum => none
  | .encode => none
  | .decode => none
  | .find => none
  | .tohost => none
  | .towire => none
  | .reservedOp _ => none
  | .frame cmd b => some (cmd, b)
  | .reqGetInfo b => some (ReqCode.getInfo.code, b)
  | .reqSendKbGeneral b => some (ReqCode.sendKbGeneral.code, b)
  | .reqSendKbMedia b => some (ReqCode.sendKbMedia.code, b)
  | .reqSendMsAbs b => some (ReqCode.sendMsAbs.code, b)
  | .reqSendMsRel b => some (ReqCode.sendMsRel.code, b)
  | .reqSendHid b => some (ReqCode.sendHid.code, b)
  | .reqReadHid b => some (ReqCode.readHid.code, b)
  | .reqGetParaCfg b => some (ReqCode.getParaCfg.code, b)
  | .reqSetParaCfg b => some (ReqCode.setParaCfg.code, b)
  | .reqGetUsbString b => some (ReqCode.getUsbString.code, b)
  | .reqSetUsbString b => some (ReqCode.setUsbString.code, b)
  | .reqSetDefaultCfg b => some (ReqCode.setDefaultCfg.code, b)
  | .reqReset b => some (ReqCode.reset.code, b)
  | .rspGetInfo b => some (RspCode.getInfo.code, b)
  | .rspSendKbGeneral b => some (RspCode.sendKbGeneral.code, b)
  | .rspSendKbMedia b => some (RspCode.sendKbMedia.code, b)
  | .rspSendMsAbs b => some (RspCode.sendMsAbs.code, b)
  | .rspSendMsRel b => some (RspCode.sendMsRel.code, b)
  | .rspSendHid b => some (RspCode.sendHid.code, b)
  | .rspReadHid b => some (RspCode.readHid.code, b)
  | .rspGetParaCfg b => some (RspCode.getParaCfg.code, b)
  | .rspSetParaCfg b => some (RspCode.setParaCfg.code, b)
  | .rspGetUsbString b => some (RspCode.getUsbString.code, b)
  | .rspSetUsbString b => some (RspCode.setUsbString.code, b)
  | .rspSetDefaultCfg b => some (RspCode.setDefaultCfg.code, b)
  | .rspReset b => some (RspCode.reset.code, b)
  | .rspUnknown b => some (RspCode.unknown.code, b)
  | .rspError b => some (RspCode.error.code, b)

/-- The row of the opcode table for a named request (R95, R114). -/
def Instr.ofReq (b : FrameBody) : ReqCode → Instr
  | .getInfo => .reqGetInfo b
  | .sendKbGeneral => .reqSendKbGeneral b
  | .sendKbMedia => .reqSendKbMedia b
  | .sendMsAbs => .reqSendMsAbs b
  | .sendMsRel => .reqSendMsRel b
  | .sendHid => .reqSendHid b
  | .readHid => .reqReadHid b
  | .getParaCfg => .reqGetParaCfg b
  | .setParaCfg => .reqSetParaCfg b
  | .getUsbString => .reqGetUsbString b
  | .setUsbString => .reqSetUsbString b
  | .setDefaultCfg => .reqSetDefaultCfg b
  | .reset => .reqReset b

/-- The row of the opcode table for a named response (R96, R114). -/
def Instr.ofRsp (b : FrameBody) : RspCode → Instr
  | .getInfo => .rspGetInfo b
  | .sendKbGeneral => .rspSendKbGeneral b
  | .sendKbMedia => .rspSendKbMedia b
  | .sendMsAbs => .rspSendMsAbs b
  | .sendMsRel => .rspSendMsRel b
  | .sendHid => .rspSendHid b
  | .readHid => .rspReadHid b
  | .getParaCfg => .rspGetParaCfg b
  | .setParaCfg => .rspSetParaCfg b
  | .getUsbString => .rspGetUsbString b
  | .setUsbString => .rspSetUsbString b
  | .setDefaultCfg => .rspSetDefaultCfg b
  | .reset => .rspReset b
  | .unknown => .rspUnknown b
  | .error => .rspError b

end Sys2Proof
end

