-- ==== Sys2Proof/Config.lean ====
section
/-! DEFINITION. The constants of 00_scope.md R7, the open parameter `BUF_CAP` (R8) and the free
values of the model. -/

namespace Sys2Proof.Config

/-- `MAGIC0` (R7). -/
def magic0 : Byte := 0x57#8

/-- `MAGIC1` (R7). -/
def magic1 : Byte := 0xAB#8

/-- `ADDR`, always 0 (R7, R93). -/
def addr : Byte := 0x00#8

/-- `HDR_SIZE` (R7). -/
def hdrSize : Nat := 5

/-- `MIN_SCAN`, the source's minFrameSize (R7). -/
def minScan : Nat := 5

/-- `MAX_PAYLOAD` (R7). -/
def maxPayload : Nat := 255

/-- `REC_SIZE` (R7). -/
def recSize : Nat := 50

/-- `INFO_SIZE` (R7). -/
def infoSize : Nat := 8

/-- `MIN_FRAME` (R7). -/
def minFrame : Nat := 6

/-- `MAX_FRAME` (R7). -/
def maxFrame : Nat := 261

/-- The open part of the parameter `BUF_CAP` (R8, D4, U4): how far it lies above its lower bound.
No body: nothing can evaluate it, so what is proved holds of every capacity (log 3). -/
opaque bufCapAboveMin : Nat

/-- `BUF_CAP` of the machine that `State.reset` describes: any number from 6 on (R8; log 3). -/
def bufCap : Nat := bufCapAboveMin + 6

/-- FREE VALUE (U1, D21; log 4). What byte `i` of array `sp` holds while nothing has been written
there since the reset numbered `draw`: any value, the same at every read, never known to be zero. -/
opaque freeByte (draw : Nat) (sp : Space) (i : Nat) : Byte

end Sys2Proof.Config
end

