-- ==== Sys2Proof/Machine/Wire.lean ====
section
/-! DEFINITION. The five pure functions on byte sequences that carry the block's meaning
(00_scope.md R11): `checksum` (R120), `encode` (R130), `decode` (R134), `find` (R150), `swap` (R170),
and the plausibility predicate (R98). -/

namespace Sys2Proof

/-- `b[k]`, for an index the rule that reads it has shown to be inside `b` (R9). -/
def byteAt (b : List Byte) (k : Nat) : Byte := b.getD k 0

/-- `checksum(b)`: the sum of the bytes, taken exactly and then modulo 256 (R120). -/
def checksum (b : List Byte) : Byte := BitVec.ofNat 8 ((b.map BitVec.toNat).sum)

/-- The five header bytes of a frame (R90, R130). -/
def frameHeader (cmd n : Byte) : List Byte :=
  [Config.magic0, Config.magic1, Config.addr, cmd, n]

/-- `encode(cmd, p)` (R130), for `len(p) ≤ 255`. -/
def encodeFrame (cmd : Byte) (p : List Byte) : List Byte :=
  let body := frameHeader cmd (BitVec.ofNat 8 p.length) ++ p
  body ++ [checksum body]

/-- The five reasons `decode` fails for (R134, R200). -/
inductive FailReason
  | short | head | addr | trunc | sum
  deriving DecidableEq, Repr

/-- What `decode` returns (R11). -/
inductive Decoded
  | ok (cmd n : Byte) (payload : List Byte)
  | fail (reason : FailReason)
  deriving DecidableEq, Repr

/-- `decode(b)`: the checks of R134 in their order (R202), with the frame size `6 + N` (C1). -/
def decodeFrame (b : List Byte) : Decoded :=
  if b.length < Config.hdrSize then .fail .short
  else if byteAt b 0 ≠ Config.magic0 ∨ byteAt b 1 ≠ Config.magic1 then .fail .head
  else if byteAt b 2 ≠ Config.addr then .fail .addr
  else if 6 + (byteAt b 4).toNat > b.length then .fail .trunc
  else if checksum (b.take (5 + (byteAt b 4).toNat)) ≠ byteAt b (5 + (byteAt b 4).toNat) then
    .fail .sum
  else .ok (byteAt b 3) (byteAt b 4) ((b.drop 5).take (byteAt b 4).toNat)

/-- The three-byte test of R150 at the start of a sequence of at least five bytes. -/
def isCandidate (b : List Byte) : Bool :=
  byteAt b 0 == Config.magic0 && byteAt b 1 == Config.magic1 && byteAt b 2 == Config.addr

/-- The declared length of a successful decoding of `b`, or none. -/
def declaredLength (b : List Byte) : Option Byte :=
  match decodeFrame b with
  | .ok _ n _ => some n
  | .fail _ => none

/-- The scan loop of R150 from index `i` on, `tries` indices long: one byte further after every
index that is no candidate or whose candidate fails (R156). -/
def scanFrom (b : List Byte) : (tries i : Nat) → Option (Nat × Byte)
  | 0, _ => none
  | tries + 1, i =>
    if isCandidate (b.drop i) then
      match declaredLength (b.drop i) with
      | some n => some (i, n)
      | none => scanFrom b tries (i + 1)
    else scanFrom b tries (i + 1)

/-- `find(b)` (R150): indices 0 to `L - 5`, none when `L < 5`; the length is tested first, so that
`L - 5` is never formed below zero (R152, R241). -/
def findFrame (b : List Byte) : Option (Nat × Byte) :=
  if b.length < Config.minScan then none
  else scanFrom b (b.length - Config.minScan + 1) 0

/-- Where the byte that `swap` puts at offset `k` comes from (R170): the baud rate's four bytes and
three two-byte fields reversed, every other offset its own. -/
def swapIndex (k : Nat) : Nat :=
  match k with
  | 3 => 6 | 4 => 5 | 5 => 4 | 6 => 3
  | 9 => 10 | 10 => 9
  | 15 => 16 | 16 => 15
  | 17 => 18 | 18 => 17
  | k => k

/-- `swap(r)` for a record of 50 bytes (R170). -/
def swapRecord (r : List Byte) : List Byte :=
  (List.range Config.recSize).map fun k => byteAt r (swapIndex k)

/-- The ten offsets `TOHOST` and `TOWIRE` write (R173). -/
def swappedOffsets : List Nat := [3, 4, 5, 6, 9, 10, 15, 16, 17, 18]

/-- The predicate of R98: the code lies in 0x81 to 0xC0, both ends included. -/
def plausible (cmd : Byte) : Bool := 0x81#8 ≤ cmd && cmd ≤ 0xC0#8

end Sys2Proof
end

