-- ==== Sys2Proof/WellFormed.lean ====
section
/-! DEFINITION. Which instructions the encodings of 30_encoding.md admit. `Instr.laidOut` is what the
decoder yields: every part in its place. `Instr.wellFormed` adds the check of the last byte (R92), so
that a well-formed frame is a valid frame of R90. -/

namespace Sys2Proof

/-- The payload is as long as the length byte says (R90, R91). -/
def FrameBody.lengthAgrees (b : FrameBody) : Bool := b.payload.length == b.len.toNat

/-- The last byte is the checksum of header and payload (R90, R92). -/
def FrameBody.sumAgrees (cmd : Byte) (b : FrameBody) : Bool :=
  b.sum == checksum (frameHeader cmd b.len ++ b.payload)

/-- The format of an instruction's row (R114). -/
def Instr.format (i : Instr) : Format :=
  match i.frameParts with
  | none => .op8
  | some _ => .frame

/-- Every part of the instruction has a place in its encoding: a reserved code is 0x07 or above
(R112), the generic frame's command byte is one no other row names (R114), and the payload is as long
as the length byte says (R90). -/
def Instr.laidOut (i : Instr) : Bool :=
  (match i with
   | .reservedOp code => decide (7 ≤ code.toNat)
   | .frame cmd _ => unnamedCommand cmd
   | _ => true) &&
  (match i.frameParts with
   | none => true
   | some (_, b) => b.lengthAgrees)

/-- Laid out, and a frame's last byte is its checksum (R90, R99). -/
def Instr.wellFormed (i : Instr) : Bool :=
  i.laidOut &&
  (match i.frameParts with
   | none => true
   | some (cmd, b) => b.sumAgrees cmd)

end Sys2Proof
end

