-- ==== Sys2Proof/Decode.lean ====
section
/-! DEFINITION. The instruction decoder, total on any bytes and rejecting by name, and after it the
encoder, both from the encodings of 30_encoding.md (R111, R112, R90, R95, R96, R114). Also the
host's way of naming a row by a number, `decodeTableWord`. -/

namespace Sys2Proof

/-- Why a byte sequence is no instruction: fewer bytes than the encoding needs, no magic, a non-zero
address byte (R90, R99), a payload or last byte that has not arrived (R91). -/
inductive DecodeError
  | short | head | addr | trunc
  deriving DecidableEq, Repr

/-- The operation a byte written to `OP` selects: the whole byte is the code (R111), and 0x07 to
0xFF are reserved (R112). -/
def decodeOp (v : Byte) : Instr :=
  match v.toNat with
  | 0 => .clr
  | 1 => .cksum
  | 2 => .encode
  | 3 => .decode
  | 4 => .find
  | 5 => .tohost
  | 6 => .towire
  | _ => .reservedOp v

/-- The row a frame's command byte selects; a byte with no name is the generic row's (R114). -/
def frameRow (cmd : Byte) (b : FrameBody) : Instr :=
  match ReqCode.ofByte cmd with
  | some r => Instr.ofReq b r
  | none =>
    match RspCode.ofByte cmd with
    | some r => Instr.ofRsp b r
    | none => .frame cmd b

/-- The wire frame at the start of a byte sequence, taken apart as R94 says, and the bytes after it.
The row is told by bytes 0 to 3 and the length by byte 4 (R91, R114); the last byte is carried along
unchecked (log 5). -/
def decodeWire : List Byte → Except DecodeError (Instr × List Byte)
  | m0 :: m1 :: a :: cmd :: n :: rest =>
    if m0 ≠ Config.magic0 ∨ m1 ≠ Config.magic1 then .error .head
    else if a ≠ Config.addr then .error .addr
    else
      match rest.drop n.toNat with
      | [] => .error .trunc
      | sum :: after => .ok (frameRow cmd ⟨n, rest.take n.toNat, sum⟩, after)
  | _ => .error .short

/-- The instruction at the start of a byte sequence of the given format, and the bytes after it. -/
def decodeInstr (f : Format) (bytes : List Byte) : Except DecodeError (Instr × List Byte) :=
  match f with
  | .op8 =>
    match bytes with
    | [] => .error .short
    | v :: rest => .ok (decodeOp v, rest)
  | .frame => decodeWire bytes

/-- The bytes of a frame with the given command byte and body, first byte on the wire first (R90). -/
def wireBytes (cmd : Byte) (b : FrameBody) : List Byte :=
  frameHeader cmd b.len ++ b.payload ++ [b.sum]

/-- The byte written to `OP` for an operation (R111). -/
def opByte : Instr → Byte
  | .clr => 0x00#8
  | .cksum => 0x01#8
  | .encode => 0x02#8
  | .decode => 0x03#8
  | .find => 0x04#8
  | .tohost => 0x05#8
  | .towire => 0x06#8
  | .reservedOp code => code
  | _ => 0x00#8

/-- The encoding of an instruction: the byte written to `OP`, or the bytes of the frame. -/
def encodeInstr (i : Instr) : List Byte :=
  match i.frameParts with
  | none => [opByte i]
  | some (cmd, b) => wireBytes cmd b

/-- The bytes of the instruction whose bits are `w`, numbered as the table numbers them: 8 bits are
the byte written to `OP`; otherwise frame bytes 0 to 3 are bits 31 to 0 with byte 0 most significant
(R114) and byte `k` from 4 on is bits `8k+7` to `8k`, up to the longest frame. -/
def tableBytes (nbits w : Nat) : List Byte :=
  let v := w % 2 ^ nbits
  if nbits ≤ 8 then [BitVec.ofNat 8 v]
  else
    [BitVec.ofNat 8 (v / 2 ^ 24), BitVec.ofNat 8 (v / 2 ^ 16), BitVec.ofNat 8 (v / 2 ^ 8),
      BitVec.ofNat 8 v] ++
    (List.range (Config.maxFrame - 4)).map fun k => BitVec.ofNat 8 (v / 2 ^ (8 * (k + 4)))

/-- The format a row of `nbits` bits has. -/
def tableFormat (nbits : Nat) : Format := if nbits ≤ 8 then .op8 else .frame

/-- The instruction the decoder reads from a table word. -/
def decodeTableWord (nbits w : Nat) : Option Instr :=
  match decodeInstr (tableFormat nbits) (tableBytes nbits w) with
  | .ok (i, _) => some i
  | .error _ => none

end Sys2Proof
end

