-- ==== Sys2Proof/Machine/State.lean ====
section
/-! DEFINITION. The state of FDEC: the scalar registers of 10_state.md R23, the `STATUS` flags of
R31, the five byte arrays of R40, the parameter `BUF_CAP` (R8), and the model's own fields for the
host's side (R62, R252) and for free values. -/

namespace Sys2Proof.Machine

/-- The reason codes of `STATUS.ERR`, 3 bits, in the order 0 to 7 (R200). -/
inductive ErrCode
  | none | short | head | addr | trunc | sum | notfound | illop
  deriving DecidableEq, Repr

/-- `STATUS` (R31). Bits 7:6 are no state: they always read 0 (R21, R31). -/
structure Status where
  ok    : Bool
  err   : ErrCode
  plaus : Bool
  ovf   : Bool
  deriving DecidableEq, Repr

/-- A byte array: the cells written since the last reset, indices strictly rising. A cell that is not
listed has not been written (R40, R41; log 4). -/
abbrev Memory := List Host.Cell

/-- The whole architectural state (R20): ten scalar registers that hold a value (`OP` and `RXPUSH`
store nothing, R24, R231) and five byte arrays; then the parameter and the model's own fields. -/
structure State where
  /-- `STATUS` 0x01. -/
  status  : Status
  /-- `OFF` 0x02, an `IDX_W`-bit index (R25). -/
  off     : Nat
  /-- `RXLEN` 0x03, `IDX_W` bits, 0 to `BUF_CAP` (R26). -/
  rxlen   : Nat
  /-- `SUM` 0x05 (R27). -/
  sum     : Byte
  /-- `ENC_CMD` 0x06 (R28). -/
  encCmd  : Byte
  /-- `ENC_LEN` 0x07 (R28). -/
  encLen  : Byte
  /-- `TXLEN` 0x08, 9 bits (R29). -/
  txlen   : BitVec 9
  /-- `DEC_CMD` 0x09 (R30). -/
  decCmd  : Byte
  /-- `DEC_LEN` 0x0A (R30). -/
  decLen  : Byte
  /-- `FLEN` 0x0B (R30). -/
  flen    : Byte
  /-- `RXBUF`, `BUF_CAP` bytes (R40). -/
  rxbuf   : Memory
  /-- `ENC_PAY`, 255 bytes (R40). -/
  encPay  : Memory
  /-- `TXBUF`, 261 bytes (R40). -/
  txbuf   : Memory
  /-- `DEC_PAY`, 255 bytes (R40). -/
  decPay  : Memory
  /-- `REC`, 50 bytes (R40, R42). -/
  cfgRec  : Memory
  /-- The parameter `BUF_CAP` (R8), held beside the registers so that every statement quantifies over
  it (log 3). No step changes it. -/
  bufCap  : Nat
  /-- The model's own: how many resets have happened, the draw that `Config.freeByte` is applied to
  (log 4). -/
  draw    : Nat
  /-- The model's own: what the host does next, first event first (R62, R252; log 1). -/
  pending : List Input
  /-- The model's own: the values the host's read accesses have returned, latest first (R63, R64;
  log 1). -/
  replies : List Nat
  deriving DecidableEq, Repr

/-- Nothing stops FDEC: no operation traps, hangs or locks the block (R204, R206), so the model raises
no fault and this type has no constructor. -/
inductive Fault
  deriving DecidableEq, Repr

/-- Why the model gives a step no meaning. -/
inductive Refusal
  /-- Raised by `exec` alone, for an instruction without a meaning; no arm raises it. Safe. -/
  | notModelled (mnemonic : String)
  /-- Raised by a host access to a register number above 0x0B, which names nothing (R66, U2:
  `refuse`). Safe. -/
  | noSuchRegister (n : Nat)
  /-- Raised by a host access to an array index at or above the array's size, which names nothing
  (R66, U2: `refuse`). Safe. -/
  | noSuchIndex (sp : Space) (i : Nat)
  deriving DecidableEq, Repr

/-- The outcome of a step or of a meaning. -/
abbrev Result := Host.Outcome State Fault Refusal

/-- What `fetch` finds at the head of the host's sequence. -/
inductive Fetched
  /-- The host issues no further access (R252). -/
  | idle
  /-- An instruction, and the state it runs in. -/
  | instr (i : Instr) (s : State)
  /-- A host access that starts no operation. -/
  | access (e : HostEvent) (s : State)
  /-- Pushed bytes that are no wire frame. -/
  | push (bytes : List Byte) (s : State)
  deriving DecidableEq, Repr

/-- The state right after reset (R46, R231): every scalar register 0, no byte of any array written. -/
def State.reset : State where
  status  := ⟨false, .none, false, false⟩
  off     := 0
  rxlen   := 0
  sum     := 0#8
  encCmd  := 0#8
  encLen  := 0#8
  txlen   := 0#9
  decCmd  := 0#8
  decLen  := 0#8
  flen    := 0#8
  rxbuf   := []
  encPay  := []
  txbuf   := []
  decPay  := []
  cfgRec  := []
  bufCap  := Config.bufCap
  draw    := 0
  pending := []
  replies := []

end Sys2Proof.Machine
end

