-- ==== Sys2Proof/Machine/Flags.lean ====
section
/-! DEFINITION. `STATUS` as one byte and the ways its fields are written (10_state.md R31, R32;
60_exceptions.md R200, R205). -/

namespace Sys2Proof.Machine

/-- The 3-bit code of a reason (R200). -/
def ErrCode.code : ErrCode → Nat
  | .none => 0
  | .short => 1
  | .head => 2
  | .addr => 3
  | .trunc => 4
  | .sum => 5
  | .notfound => 6
  | .illop => 7

/-- The code of a reason `decode` fails for (R138, R200). -/
def ErrCode.ofFail : FailReason → ErrCode
  | .short => .short
  | .head => .head
  | .addr => .addr
  | .trunc => .trunc
  | .sum => .sum

/-- The value `STATUS` reads as (R31): `OK` bit 0, `ERR` bits 3:1, `PLAUS` bit 4, `OVF` bit 5, bits
7:6 zero. -/
def Status.toByte (st : Status) : Byte :=
  BitVec.ofNat 8 (st.ok.toNat + 2 * st.err.code + 16 * st.plaus.toNat + 32 * st.ovf.toNat)

/-- Bits 4:0 after an operation that succeeded, `OVF` kept (R31, R32). -/
def Status.succeeded (plaus : Bool) (st : Status) : Status :=
  { ok := true, err := .none, plaus := plaus, ovf := st.ovf }

/-- Bits 4:0 after an operation that failed, `OVF` kept (R205). -/
def Status.failed (e : ErrCode) (st : Status) : Status :=
  { ok := false, err := e, plaus := false, ovf := st.ovf }

/-- `OVF` set, no other bit touched (R32, R65). -/
def Status.overflowed (st : Status) : Status := { st with ovf := true }

/-- `OVF` cleared, no other bit touched (R32, R185). -/
def Status.ovfCleared (st : Status) : Status := { st with ovf := false }

end Sys2Proof.Machine
end

