-- ==== Sys2Proof/Machine/Ops.lean ====
section
/-! DEFINITION. The named operations over byte arrays and registers: reading and writing one byte,
the append access (20_memory.md R65), the register map (R63, R64), how an operation ends well or
raises an error (R10, R205), and the reset event (R230). -/

namespace Sys2Proof.Machine

/-! ### One byte array -/

/-- The byte written at index `i`, or none where nothing has been written since reset. -/
def Memory.lookup : Memory → Nat → Option Byte
  | [], _ => none
  | (a, b) :: m, i => if a = i then some b else Memory.lookup m i

/-- `M[i] <- v` (R10), indices kept strictly rising. -/
def Memory.write : Memory → Nat → Byte → Memory
  | [], i, v => [(i, v)]
  | (a, b) :: m, i, v =>
    if i < a then (i, v) :: (a, b) :: m
    else if i = a then (i, v) :: m
    else (a, b) :: Memory.write m i v

/-- `M[i] <- bs[0]`, `M[i+1] <- bs[1]` and so on. -/
def Memory.writeList : Memory → Nat → List Byte → Memory
  | m, _, [] => m
  | m, i, b :: bs => Memory.writeList (Memory.write m i b) (i + 1) bs

/-- The canonical form: indices strictly rising. -/
abbrev Memory.wf (m : Memory) : Prop := (m.map Prod.fst).Pairwise (· < ·)

/-! ### The arrays of a state -/

/-- The cells of an array (R40, R60). -/
def State.array (s : State) : Space → Memory
  | .rxbuf => s.rxbuf
  | .encPay => s.encPay
  | .txbuf => s.txbuf
  | .decPay => s.decPay
  | .cfgRec => s.cfgRec

/-- The state with the cells of one array replaced. -/
def State.setArray (s : State) (sp : Space) (m : Memory) : State :=
  match sp with
  | .rxbuf => { s with rxbuf := m }
  | .encPay => { s with encPay := m }
  | .txbuf => { s with txbuf := m }
  | .decPay => { s with decPay := m }
  | .cfgRec => { s with cfgRec := m }

/-- An array's size in bytes (R40, R60). -/
def State.size (s : State) : Space → Nat
  | .rxbuf => s.bufCap
  | .encPay => Config.maxPayload
  | .txbuf => Config.maxFrame
  | .decPay => Config.maxPayload
  | .cfgRec => Config.recSize

/-- The byte stored at index `i` of an array: the last one written since reset, or the free value an
unwritten byte holds (R41, R64, R71, U1; log 4). -/
def State.readByte (s : State) (sp : Space) (i : Nat) : Byte :=
  (Memory.lookup (s.array sp) i).getD (Config.freeByte s.draw sp i)

/-- `IDX_W`: the smallest width `w` with `BUF_CAP < 2^w` (R8). -/
def State.idxW (s : State) : Nat := Nat.log2 s.bufCap + 1

/-! ### How an operation ends -/

/-- The end of an operation that succeeded: `OK <- 1`, `ERR <- 0`, `PLAUS` as given (R31, R32). -/
def State.succeed (s : State) (plaus : Bool) : State :=
  { s with status := s.status.succeeded plaus }

/-- `raise <Error>` (R10, R205), the block's form of taking an exception: `OK <- 0`, `ERR <- code`,
`PLAUS <- 0`, `OVF` kept, nothing else written. No state is saved and control goes nowhere (R204); no
return exists and none is needed (R206). -/
def State.raise (s : State) (e : ErrCode) : State :=
  { s with status := s.status.failed e }

/-! ### The append access -/

/-- `WrReg(RXPUSH, v)` (R65). -/
def State.pushByte (s : State) (v : Byte) : State :=
  if s.rxlen < s.bufCap then
    { s with rxbuf := Memory.write s.rxbuf s.rxlen v, rxlen := s.rxlen + 1 }
  else { s with status := s.status.overflowed }

/-- `PUSH b0 b1 ...`: that many append accesses, left to right (R113). -/
def State.pushBytes : State → List Byte → State
  | s, [] => s
  | s, b :: bs => State.pushBytes (s.pushByte b) bs

/-- A wire frame arrives: each of its bytes enters by an append access, first byte first, whatever its
command byte and whatever its last byte (R65, R67, R99, R114; log 2). -/
def receiveFrame (cmd : Byte) (b : FrameBody) (s : State) : Result :=
  .next (s.pushBytes (wireBytes cmd b))

/-! ### The register map -/

/-- `RdReg(n)`: the value of register `n`, none above 0x0B (R23, R63, R66). -/
def State.readReg (s : State) (n : Nat) : Option Nat :=
  match n with
  | 0x00 => some 0
  | 0x01 => some s.status.toByte.toNat
  | 0x02 => some s.off
  | 0x03 => some s.rxlen
  | 0x04 => some 0
  | 0x05 => some s.sum.toNat
  | 0x06 => some s.encCmd.toNat
  | 0x07 => some s.encLen.toNat
  | 0x08 => some s.txlen.toNat
  | 0x09 => some s.decCmd.toNat
  | 0x0A => some s.decLen.toNat
  | 0x0B => some s.flen.toNat
  | _ => none

/-- `WrReg(n, v)` for a register other than `OP`, none above 0x0B: `OFF`, `ENC_CMD` and `ENC_LEN` take
the low bits of `v`, `RXPUSH` appends, a read-only register ignores the write (R23, R64, R66). `OP`
stores nothing (R24); the operation its write starts is `fetch`'s. -/
def State.writeReg (s : State) (n v : Nat) : Option State :=
  match n with
  | 0x00 => some s
  | 0x01 => some s
  | 0x02 => some { s with off := v % 2 ^ s.idxW }
  | 0x03 => some s
  | 0x04 => some (s.pushByte (BitVec.ofNat 8 v))
  | 0x05 => some s
  | 0x06 => some { s with encCmd := BitVec.ofNat 8 v }
  | 0x07 => some { s with encLen := BitVec.ofNat 8 v }
  | 0x08 => some s
  | 0x09 => some s
  | 0x0A => some s
  | 0x0B => some s
  | _ => none

/-- Whether the host may write an array by index (R40, R64). -/
def hostWritable : Space → Bool
  | .rxbuf => false
  | .encPay => true
  | .txbuf => false
  | .decPay => false
  | .cfgRec => true

/-- The host is given the value of a read. -/
def State.reply (s : State) (v : Nat) : State := { s with replies := v :: s.replies }

/-! ### The reset event -/

/-- `Reset` (R230, R231, R232): every scalar register takes its reset value and the contents of the
arrays become unspecified, which a new draw of free values says (log 4). The parameter and the host's
side are no state of the block and stay. -/
def State.afterReset (s : State) : State :=
  { State.reset with
    bufCap := s.bufCap, draw := s.draw + 1, pending := s.pending, replies := s.replies }

end Sys2Proof.Machine
end

