-- ==== Sys2Proof/Machine/Operands.lean ====
section
/-! DEFINITION. The operands of the operations: counted slices of the byte arrays
(20_memory.md R76, 00_scope.md R9). -/

namespace Sys2Proof.Machine

/-- `M[i..i+n-1]` of an array (R9). -/
def State.slice (s : State) (sp : Space) (i n : Nat) : List Byte :=
  (List.range n).map fun k => s.readByte sp (i + k)

/-- `RXBUF[0..RXLEN-1]`, the operand of `CKSUM` and `FIND` (R122, R153). -/
def State.rxBytes (s : State) : List Byte := s.slice .rxbuf 0 s.rxlen

/-- `RXBUF[OFF..RXLEN-1]`, the operand of `DECODE`, empty when `OFF ≥ RXLEN` (R138, R139). -/
def State.rxFromOff (s : State) : List Byte := s.slice .rxbuf s.off (s.rxlen - s.off)

/-- `ENC_PAY[0..ENC_LEN-1]`, the operand of `ENCODE` (R132). -/
def State.encPayload (s : State) : List Byte := s.slice .encPay 0 s.encLen.toNat

/-- `REC[0..49]`, the operand of `TOHOST` and `TOWIRE` (R173, R174). -/
def State.recBytes (s : State) : List Byte := s.slice .cfgRec 0 Config.recSize

end Sys2Proof.Machine
end

