-- ==== Sys2Proof/Machine/Checksum.lean ====
section
/-! DEFINITION. The checksum operation `CKSUM` (40_checksum.md R122). -/

namespace Sys2Proof.Machine

/-- `CKSUM` (R122): `SUM <- checksum(RXBUF[0..RXLEN-1])`; it ignores `OFF` and cannot fail. -/
def execCksum (s : State) : Result :=
  .next ({ s with sum := checksum s.rxBytes }.succeed false)

end Sys2Proof.Machine
end

