-- ==== Sys2Proof/Machine/Codec.lean ====
section
/-! DEFINITION. The frame operations `ENCODE` and `DECODE` (41_codec.md R132, R138). -/

namespace Sys2Proof.Machine

/-- `ENCODE` (R132): the frame goes to `TXBUF[0..5+ENC_LEN]`, the bytes above keep their values, and
`TXLEN <- 6 + ENC_LEN` in 9 bits (R29, R133). It cannot fail. -/
def execEncode (s : State) : Result :=
  .next ({ s with
    txbuf := Memory.writeList s.txbuf 0 (encodeFrame s.encCmd s.encPayload)
    txlen := BitVec.ofNat 9 (6 + s.encLen.toNat) }.succeed false)

/-- `DECODE` (R138): on success the result registers and `PLAUS` are written, on failure the reason is
raised and nothing else is (R205). -/
def execDecode (s : State) : Result :=
  match decodeFrame s.rxFromOff with
  | .ok cmd n payload =>
    .next ({ s with
      decCmd := cmd
      decLen := n
      decPay := Memory.writeList s.decPay 0 payload }.succeed (plausible cmd))
  | .fail reason => .next (s.raise (ErrCode.ofFail reason))

end Sys2Proof.Machine
end

