-- ==== Sys2Proof/Machine/Control.lean ====
section
/-! DEFINITION. The control operations `CLR` and the reserved codes (44_control_ops.md R185, R187). -/

namespace Sys2Proof.Machine

/-- `CLR` (R185): the receive buffer is empty again, `OFF` and `OVF` are 0; no byte is erased. -/
def execClr (s : State) : Result :=
  .next ({ s with rxlen := 0, off := 0, status := s.status.ovfCleared }.succeed false)

/-- A reserved code (R187): `ILLOP`, nothing else, the same for every code. -/
def execReservedOp (_code : Byte) (s : State) : Result := .next (s.raise .illop)

end Sys2Proof.Machine
end

