-- ==== Sys2Proof/Machine/Frames.lean ====
section
/-! DEFINITION. The wire frames as instructions (30_encoding.md R90, R95, R96, R114): one definition a
row, each over the shared operation `receiveFrame`, since the block treats every command byte alike
(R99). -/

namespace Sys2Proof.Machine

/-- `FRAME`: a frame whose command byte has no name arrives (R90, R99). -/
def execFrame (cmd : Byte) (b : FrameBody) (s : State) : Result := receiveFrame cmd b s

/-- `REQ_GET_INFO` arrives (R95). -/
def execReqGetInfo (b : FrameBody) (s : State) : Result := receiveFrame ReqCode.getInfo.code b s

/-- `REQ_SEND_KB_GENERAL` arrives (R95). -/
def execReqSendKbGeneral (b : FrameBody) (s : State) : Result := receiveFrame ReqCode.sendKbGeneral.code b s

/-- `REQ_SEND_KB_MEDIA` arrives (R95). -/
def execReqSendKbMedia (b : FrameBody) (s : State) : Result := receiveFrame ReqCode.sendKbMedia.code b s

/-- `REQ_SEND_MS_ABS` arrives (R95). -/
def execReqSendMsAbs (b : FrameBody) (s : State) : Result := receiveFrame ReqCode.sendMsAbs.code b s

/-- `REQ_SEND_MS_REL` arrives (R95). -/
def execReqSendMsRel (b : FrameBody) (s : State) : Result := receiveFrame ReqCode.sendMsRel.code b s

/-- `REQ_SEND_HID` arrives (R95). -/
def execReqSendHid (b : FrameBody) (s : State) : Result := receiveFrame ReqCode.sendHid.code b s

/-- `REQ_READ_HID` arrives (R95). -/
def execReqReadHid (b : FrameBody) (s : State) : Result := receiveFrame ReqCode.readHid.code b s

/-- `REQ_GET_PARA_CFG` arrives (R95). -/
def execReqGetParaCfg (b : FrameBody) (s : State) : Result := receiveFrame ReqCode.getParaCfg.code b s

/-- `REQ_SET_PARA_CFG` arrives (R95). -/
def execReqSetParaCfg (b : FrameBody) (s : State) : Result := receiveFrame ReqCode.setParaCfg.code b s

/-- `REQ_GET_USB_STRING` arrives (R95). -/
def execReqGetUsbString (b : FrameBody) (s : State) : Result := receiveFrame ReqCode.getUsbString.code b s

/-- `REQ_SET_USB_STRING` arrives (R95). -/
def execReqSetUsbString (b : FrameBody) (s : State) : Result := receiveFrame ReqCode.setUsbString.code b s

/-- `REQ_SET_DEFAULT_CFG` arrives (R95). -/
def execReqSetDefaultCfg (b : FrameBody) (s : State) : Result := receiveFrame ReqCode.setDefaultCfg.code b s

/-- `REQ_RESET` arrives (R95). -/
def execReqReset (b : FrameBody) (s : State) : Result := receiveFrame ReqCode.reset.code b s

/-- `RSP_GET_INFO` arrives (R96). -/
def execRspGetInfo (b : FrameBody) (s : State) : Result := receiveFrame RspCode.getInfo.code b s

/-- `RSP_SEND_KB_GENERAL` arrives (R96). -/
def execRspSendKbGeneral (b : FrameBody) (s : State) : Result := receiveFrame RspCode.sendKbGeneral.code b s

/-- `RSP_SEND_KB_MEDIA` arrives (R96). -/
def execRspSendKbMedia (b : FrameBody) (s : State) : Result := receiveFrame RspCode.sendKbMedia.code b s

/-- `RSP_SEND_MS_ABS` arrives (R96). -/
def execRspSendMsAbs (b : FrameBody) (s : State) : Result := receiveFrame RspCode.sendMsAbs.code b s

/-- `RSP_SEND_MS_REL` arrives (R96). -/
def execRspSendMsRel (b : FrameBody) (s : State) : Result := receiveFrame RspCode.sendMsRel.code b s

/-- `RSP_SEND_HID` arrives (R96). -/
def execRspSendHid (b : FrameBody) (s : State) : Result := receiveFrame RspCode.sendHid.code b s

/-- `RSP_READ_HID` arrives (R96). -/
def execRspReadHid (b : FrameBody) (s : State) : Result := receiveFrame RspCode.readHid.code b s

/-- `RSP_GET_PARA_CFG` arrives (R96). -/
def execRspGetParaCfg (b : FrameBody) (s : State) : Result := receiveFrame RspCode.getParaCfg.code b s

/-- `RSP_SET_PARA_CFG` arrives (R96). -/
def execRspSetParaCfg (b : FrameBody) (s : State) : Result := receiveFrame RspCode.setParaCfg.code b s

/-- `RSP_GET_USB_STRING` arrives (R96). -/
def execRspGetUsbString (b : FrameBody) (s : State) : Result := receiveFrame RspCode.getUsbString.code b s

/-- `RSP_SET_USB_STRING` arrives (R96). -/
def execRspSetUsbString (b : FrameBody) (s : State) : Result := receiveFrame RspCode.setUsbString.code b s

/-- `RSP_SET_DEFAULT_CFG` arrives (R96). -/
def execRspSetDefaultCfg (b : FrameBody) (s : State) : Result := receiveFrame RspCode.setDefaultCfg.code b s

/-- `RSP_RESET` arrives (R96). -/
def execRspReset (b : FrameBody) (s : State) : Result := receiveFrame RspCode.reset.code b s

/-- `RSP_UNKNOWN` arrives (R96). -/
def execRspUnknown (b : FrameBody) (s : State) : Result := receiveFrame RspCode.unknown.code b s

/-- `RSP_ERROR` arrives (R96). -/
def execRspError (b : FrameBody) (s : State) : Result := receiveFrame RspCode.error.code b s

end Sys2Proof.Machine
end

