-- ==== Sys2Proof/Machine/Scanner.lean ====
section
/-! DEFINITION. The frame synchronizer's operation `FIND` (42_scanner.md R153). -/

namespace Sys2Proof.Machine

/-- `FIND` (R153): always from index 0 of the counted bytes; `OFF` and `FLEN` are written on success
only, and nothing is consumed. -/
def execFind (s : State) : Result :=
  match findFrame s.rxBytes with
  | some (i, n) => .next ({ s with off := i, flen := n }.succeed false)
  | none => .next (s.raise .notfound)

end Sys2Proof.Machine
end

