-- ==== Sys2Proof/Machine/Transcoder.lean ====
section
/-! DEFINITION. The endianness converter's operations `TOHOST` and `TOWIRE`
(43_transcoder.md R173, R174). -/

namespace Sys2Proof.Machine

/-- `REC[k] <- s[k]` for the listed offsets `k` (R173). -/
def Memory.writeAt : Memory → List Nat → List Byte → Memory
  | m, [], _ => m
  | m, k :: ks, r => Memory.writeAt (Memory.write m k (byteAt r k)) ks r

/-- The conversion both operations make: the ten bytes are all read before any is written (R173). -/
def State.convertRec (s : State) : State :=
  { s with cfgRec := Memory.writeAt s.cfgRec swappedOffsets (swapRecord s.recBytes) }.succeed false

/-- `TOHOST` (R173). -/
def execTohost (s : State) : Result := .next s.convertRec

/-- `TOWIRE`, the same effect as `TOHOST` on every register, array and flag (R174). -/
def execTowire (s : State) : Result := .next s.convertRec

end Sys2Proof.Machine
end

