-- ==== Sys2Proof/Machine/Dispatch.lean ====
section
/-! DEFINITION. `exec`: one arm per row of `spec/opcode_table.json`. -/

namespace Sys2Proof.Machine

/-- The meaning of each instruction. -/
def exec (i : Instr) (s : State) : Host.Outcome State Fault Refusal :=
  match i with
  | .clr => Sys2Proof.Machine.execClr s
  | .cksum => Sys2Proof.Machine.execCksum s
  | .encode => Sys2Proof.Machine.execEncode s
  | .decode => Sys2Proof.Machine.execDecode s
  | .find => Sys2Proof.Machine.execFind s
  | .tohost => Sys2Proof.Machine.execTohost s
  | .towire => Sys2Proof.Machine.execTowire s
  | .reservedOp code => Sys2Proof.Machine.execReservedOp code s
  | .frame cmd b => Sys2Proof.Machine.execFrame cmd b s
  | .reqGetInfo b => Sys2Proof.Machine.execReqGetInfo b s
  | .reqSendKbGeneral b => Sys2Proof.Machine.execReqSendKbGeneral b s
  | .reqSendKbMedia b => Sys2Proof.Machine.execReqSendKbMedia b s
  | .reqSendMsAbs b => Sys2Proof.Machine.execReqSendMsAbs b s
  | .reqSendMsRel b => Sys2Proof.Machine.execReqSendMsRel b s
  | .reqSendHid b => Sys2Proof.Machine.execReqSendHid b s
  | .reqReadHid b => Sys2Proof.Machine.execReqReadHid b s
  | .reqGetParaCfg b => Sys2Proof.Machine.execReqGetParaCfg b s
  | .reqSetParaCfg b => Sys2Proof.Machine.execReqSetParaCfg b s
  | .reqGetUsbString b => Sys2Proof.Machine.execReqGetUsbString b s
  | .reqSetUsbString b => Sys2Proof.Machine.execReqSetUsbString b s
  | .reqSetDefaultCfg b => Sys2Proof.Machine.execReqSetDefaultCfg b s
  | .reqReset b => Sys2Proof.Machine.execReqReset b s
  | .rspGetInfo b => Sys2Proof.Machine.execRspGetInfo b s
  | .rspSendKbGeneral b => Sys2Proof.Machine.execRspSendKbGeneral b s
  | .rspSendKbMedia b => Sys2Proof.Machine.execRspSendKbMedia b s
  | .rspSendMsAbs b => Sys2Proof.Machine.execRspSendMsAbs b s
  | .rspSendMsRel b => Sys2Proof.Machine.execRspSendMsRel b s
  | .rspSendHid b => Sys2Proof.Machine.execRspSendHid b s
  | .rspReadHid b => Sys2Proof.Machine.execRspReadHid b s
  | .rspGetParaCfg b => Sys2Proof.Machine.execRspGetParaCfg b s
  | .rspSetParaCfg b => Sys2Proof.Machine.execRspSetParaCfg b s
  | .rspGetUsbString b => Sys2Proof.Machine.execRspGetUsbString b s
  | .rspSetUsbString b => Sys2Proof.Machine.execRspSetUsbString b s
  | .rspSetDefaultCfg b => Sys2Proof.Machine.execRspSetDefaultCfg b s
  | .rspReset b => Sys2Proof.Machine.execRspReset b s
  | .rspUnknown b => Sys2Proof.Machine.execRspUnknown b s
  | .rspError b => Sys2Proof.Machine.execRspError b s

end Sys2Proof.Machine
end

