-- ==== Sys2Proof/Machine/Fetch.lean ====
section
/-! DEFINITION. How the machine takes what the host does next (20_memory.md R62, R70), and what a host
access that starts no operation does (R63 to R66). -/

namespace Sys2Proof.Machine

/-- The head of the host's sequence: a write to `OP` is the operation its low eight bits select (R24,
R64, R111); pushed bytes that are exactly one wire frame are that frame's row (R114); anything else is
the access itself. -/
def fetch (s : State) : Fetched :=
  match s.pending with
  | [] => .idle
  | .event e :: rest =>
    match e with
    | .wrReg 0x00 v => .instr (decodeOp (BitVec.ofNat 8 v)) { s with pending := rest }
    | e => .access e { s with pending := rest }
  | .push bytes :: rest =>
    match decodeInstr .frame bytes with
    | .ok (i, []) => .instr i { s with pending := rest }
    | _ => .push bytes { s with pending := rest }

/-- A host access (R62 to R66): a read gives the host a value and changes nothing else, a write to a
read-only place is ignored, and a register or index that names nothing is refused (R66, U2). -/
def hostAccess (e : HostEvent) (s : State) : Result :=
  match e with
  | .rdReg n =>
    match s.readReg n with
    | some v => .next (s.reply v)
    | none => .refused (.noSuchRegister n)
  | .wrReg n v =>
    match s.writeReg n v with
    | some t => .next t
    | none => .refused (.noSuchRegister n)
  | .memRead sp i =>
    if i < s.size sp then .next (s.reply (s.readByte sp i).toNat)
    else .refused (.noSuchIndex sp i)
  | .memWrite sp i v =>
    if i < s.size sp then
      if hostWritable sp then
        .next (s.setArray sp (Memory.write (s.array sp) i (BitVec.ofNat 8 v)))
      else .next s
    else .refused (.noSuchIndex sp i)
  | .reset => .next s.afterReset

/-- Where `withFetchWord` puts a table word: a write of the byte to `OP`, or the bytes of the frame
pushed; bytes that are no frame are pushed as they are. -/
def tableInput (nbits w : Nat) : Input :=
  match tableFormat nbits with
  | .op8 => .event (.wrReg 0x00 (w % 2 ^ nbits))
  | .frame =>
    match decodeInstr .frame (tableBytes nbits w) with
    | .ok (i, _) => .push (encodeInstr i)
    | .error _ => .push ((tableBytes nbits w).take (nbits / 8))

end Sys2Proof.Machine
end

