-- ==== Sys2Proof/Machine/Step.lean ====
section
/-! DEFINITION. One step: the next thing the host does, whole (20_memory.md R70, R71). -/

namespace Sys2Proof.Machine

/-- One step. With nothing left for the host to do nothing changes (R20, R252). -/
def step (s : State) : Host.Outcome State Fault Refusal :=
  match fetch s with
  | .idle => .next s
  | .instr i t => exec i t
  | .access e t => hostAccess e t
  | .push bytes t => .next (t.pushBytes bytes)

/-- The state with a table word put first in the host's sequence, so that the next step runs it. -/
def State.withFetchWord (s : State) (nbits w : Nat) : State :=
  { s with pending := tableInput nbits w :: s.pending }

end Sys2Proof.Machine
end

