-- ==== Sys2Proof/Machine/Notation.lean ====
section
/-! DEFINITION. The host-access notation of 30_encoding.md R113: the spellings and pseudo-operations
that are plain sequences of host events, and `FINDDEC`, whose second event hangs on `STATUS`. -/

namespace Sys2Proof.Machine

/-- `OP <mnemonic>`: the code written to `OP`. -/
def opEvent (i : Instr) : HostEvent := .wrReg 0x00 (opByte i).toNat

/-- `PUSH <b>`. -/
def pushEvent (b : Byte) : HostEvent := .wrReg 0x04 b.toNat

/-- `ST <array>[i], b0`, `ST <array>[i+1], b1` and so on. -/
def storeEvents (sp : Space) : Nat → List Byte → List HostEvent
  | _, [] => []
  | i, b :: bs => .memWrite sp i b.toNat :: storeEvents sp (i + 1) bs

/-- `LOADPAY b0 ... b(k-1)`. -/
def loadPay (bs : List Byte) : List HostEvent :=
  storeEvents .encPay 0 bs ++ [.wrReg 0x07 bs.length]

/-- `LOADREC r0 ... r49`. -/
def loadRec (bs : List Byte) : List HostEvent := storeEvents .cfgRec 0 bs

/-- `RECV b0 ... b(k-1)`: `OP CLR`, then the pushes. -/
def recv (bs : List Byte) : List HostEvent := opEvent .clr :: bs.map pushEvent

/-- `FINDDEC`: `OP FIND`, then `OP DECODE` only if `STATUS.OK = 1`. -/
def findDec (s : State) : Result :=
  match exec .find s with
  | .next t => if t.status.ok then exec .decode t else .next t
  | r => r

end Sys2Proof.Machine
end

