-- ==== Sys2Proof/Machine/Records.lean ====
section
/-! DEFINITION. The tables and record layouts a decoder's outputs are read against (00_scope.md R4
(f); 30_encoding.md R100 to R103; 43_transcoder.md R176). The block itself never reads them: they
give names to bytes of `DEC_PAY` and `REC`. -/

namespace Sys2Proof

/-- The device's verdicts in a single-byte acknowledgement (R100). -/
inductive DeviceStatus
  | success | failure | errTimeout | errHead | errCmd | errSum | errParameter | errOperate
  deriving DecidableEq, Repr

/-- The value of a device status (R100). -/
def DeviceStatus.code : DeviceStatus → Byte
  | .success => 0x00#8
  | .failure => 0x01#8
  | .errTimeout => 0xE1#8
  | .errHead => 0xE2#8
  | .errCmd => 0xE3#8
  | .errSum => 0xE4#8
  | .errParameter => 0xE5#8
  | .errOperate => 0xE6#8

/-- The device status a byte names, none for a value R100 does not list. -/
def DeviceStatus.ofByte (c : Byte) : Option DeviceStatus :=
  [DeviceStatus.success, .failure, .errTimeout, .errHead, .errCmd, .errSum, .errParameter,
    .errOperate].find? fun d => d.code == c

/-- Whether a payload is a one-byte acknowledgement that says SUCCESS (R100, R103). -/
def ackSucceeded (payload : List Byte) : Bool := payload == [DeviceStatus.success.code]

/-- The InfoRecord, payload of a 0x81 reply (R101). -/
structure InfoRecord where
  chipVersion : Byte
  usbStatus   : Byte
  indicators  : Byte
  reserved    : List Byte
  deriving DecidableEq, Repr

/-- The InfoRecord in a payload of 8 bytes (R101). -/
def InfoRecord.ofBytes (p : List Byte) : Option InfoRecord :=
  if p.length = Config.infoSize then
    some ⟨byteAt p 0, byteAt p 1, byteAt p 2, (p.drop 3).take 5⟩
  else none

/-- One field of the ConfigRecord (R102): where it is, and whether `TOHOST` and `TOWIRE` convert
it. -/
structure ConfigField where
  name      : String
  offset    : Nat
  size      : Nat
  converted : Bool
  deriving DecidableEq, Repr

/-- The ConfigRecord's fields in layout order (R102). -/
def configFields : List ConfigField :=
  [⟨"working mode", 0, 1, false⟩, ⟨"communication mode", 1, 1, false⟩, ⟨"address", 2, 1, false⟩,
    ⟨"baud rate", 3, 4, true⟩, ⟨"reserved u16", 7, 2, false⟩, ⟨"serial interval", 9, 2, true⟩,
    ⟨"VID", 11, 2, false⟩, ⟨"PID", 13, 2, false⟩] ++
  [⟨"keyboard upload interval", 15, 2, true⟩, ⟨"keyboard release delay", 17, 2, true⟩,
    ⟨"auto-return flag", 19, 1, false⟩, ⟨"carriage-return groups", 20, 8, false⟩,
    ⟨"keyboard filter groups", 28, 8, false⟩, ⟨"USB-string flags", 36, 1, false⟩,
    ⟨"fast-upload flag", 37, 1, false⟩, ⟨"reserved", 38, 12, false⟩]

/-- The bytes of a field of a record (R102). -/
def ConfigField.bytes (f : ConfigField) (r : List Byte) : List Byte :=
  (r.drop f.offset).take f.size

/-- The number that bytes carry with the most significant first: `be16`, `be32` (R68, R176). -/
def beValue : List Byte → Nat
  | [] => 0
  | b :: bs => b.toNat * 256 ^ bs.length + beValue bs

/-- The number that bytes carry with the least significant first: `le16`, `le32` (R69, R176). -/
def leValue : List Byte → Nat
  | [] => 0
  | b :: bs => b.toNat + 256 * leValue bs

end Sys2Proof
end

