-- ==== Sys2Proof/Safety.lean ====
section
/-! DEFINITION. What a state of a running FDEC satisfies, in the terms claims use. -/

namespace Sys2Proof.Machine

/-- An array is in canonical form and holds no cell beyond its size (R40, R60). -/
def State.arrayOk (s : State) (sp : Space) : Prop :=
  Memory.wf (s.array sp) ∧ ∀ c ∈ s.array sp, c.1 < s.size sp

/-- The first `n` bytes of an array have been written since reset. -/
def State.written (s : State) (sp : Space) (n : Nat) : Prop :=
  ∀ i < n, (Memory.lookup (s.array sp) i).isSome = true

/-- The invariant of the block: what the spec says of every state it can be in. -/
structure State.Inv (s : State) : Prop where
  /-- `BUF_CAP ≥ 6` (R8). -/
  cap : Config.minFrame ≤ s.bufCap
  /-- `RXLEN` is 0 to `BUF_CAP` (R23, R26). -/
  rxlen_le : s.rxlen ≤ s.bufCap
  /-- `OFF` fits its width (R23, R25). -/
  off_lt : s.off < 2 ^ s.idxW
  /-- `TXLEN` is 0 or 6 to 261 (R23, R29). -/
  txlen_legal : s.txlen = 0#9 ∨ Config.minFrame ≤ s.txlen.toNat ∧ s.txlen.toNat ≤ Config.maxFrame
  /-- The five arrays. -/
  arrays : ∀ sp, s.arrayOk sp
  /-- The counted bytes of `RXBUF` have been pushed (R26, R76). -/
  rx_written : s.written .rxbuf s.rxlen
  /-- The counted bytes of `TXBUF` have been encoded (R29, R40). -/
  tx_written : s.written .txbuf s.txlen.toNat
  /-- The counted bytes of `DEC_PAY` have been decoded (R30, R40). -/
  dec_written : s.written .decPay s.decLen.toNat
  /-- `ERR` is 0 when `OK` is 1 (R31). -/
  ok_no_err : s.status.ok = true → s.status.err = .none
  /-- `PLAUS` is 1 only after a successful `DECODE` of a code in 0x81 to 0xC0 (R31). -/
  plaus_code : s.status.plaus = true → s.status.ok = true ∧ plausible s.decCmd = true

/-- The states a machine of any capacity can come to from reset, whatever the host does (R8, R248). -/
inductive Reachable : State → Prop
  | reset (cap : Nat) (h : Config.minFrame ≤ cap) : Reachable { State.reset with bufCap := cap }
  | host (s : State) (inputs : List Input) : Reachable s → Reachable { s with pending := inputs }
  | step (s t : State) : Reachable s → step s = .next t → Reachable t

end Sys2Proof.Machine
end

