-- ==== Sys2Proof/Certificates/Slice0/Obligations.lean ====
section
/-! DEFINITION. The statements about FDEC, from the numbered rules of `spec/`. -/

open Sys2Proof Sys2Proof.Machine

/-! ### Encodings -/

/-- R111: the whole byte written to `OP` is the operation's code; the table's seven codes and the
reserved rest. -/
def Obligations.OpByteSelectsOperation : Prop :=
  decodeOp 0x00#8 = .clr ∧ decodeOp 0x01#8 = .cksum ∧ decodeOp 0x02#8 = .encode ∧
  decodeOp 0x03#8 = .decode ∧ decodeOp 0x04#8 = .find ∧ decodeOp 0x05#8 = .tohost ∧
  decodeOp 0x06#8 = .towire ∧ ∀ v : Byte, 7 ≤ v.toNat → decodeOp v = .reservedOp v

/-- Sanity: words written out bit by bit from the spec's encodings decode to their instructions. In the
third, only bytes 0 to 3 are the spec's encoding (R96, R114): that a 32-bit table word stands for a
frame with length byte 0, no payload and last byte 0 is the model's choice (log 8), and so is that this
last byte, which is not the sum 0x92, is carried unchecked (log 5). -/
def Obligations.SampleWordsDecode : Prop :=
  decodeTableWord 8 0b00000100 = some .find ∧
  decodeTableWord 8 0b00000111 = some (.reservedOp 0b00000111#8) ∧
  decodeTableWord 32 0b01010111101010110000000010010000 = some (.rspUnknown ⟨0#8, [], 0#8⟩) ∧
  decodeInstr .frame [0b01010111#8, 0b10101011#8, 0b00000000#8, 0b00000001#8, 0b00000000#8,
      0b00000011#8] = .ok (.reqGetInfo ⟨0#8, [], 0b00000011#8⟩, []) ∧
  decodeInstr .frame [0b01010111#8, 0b10101011#8, 0b00000000#8, 0b10001001#8, 0b00000001#8,
      0b11100101#8, 0b01110001#8] = .ok (.rspSetParaCfg ⟨1#8, [0b11100101#8], 0b01110001#8⟩, [])

/-- R95, R96, R114: the command byte selects the row: a named request's code its `REQ_` row, a named
response's code its `RSP_` row, any other byte the generic row. That a named command byte is never the
generic row, which R114 says every valid frame matches, is the model's choice (log 5). -/
def Obligations.CommandByteSelectsRow : Prop :=
  (∀ r b, frameRow (ReqCode.code r) b = Instr.ofReq b r) ∧
  (∀ r b, frameRow (RspCode.code r) b = Instr.ofRsp b r) ∧
  ∀ cmd b, (∀ r, ReqCode.code r ≠ cmd) → (∀ r, RspCode.code r ≠ cmd) →
    frameRow cmd b = .frame cmd b

/-- R95, R96: request codes lie in 0x01 to 0x0F, the paired response's code is the request's with bit
7 set, and every named response code, `UNKNOWN` 0x90 and `ERROR` 0xC0 among them, is plausible. -/
def Obligations.RequestResponsePairing : Prop :=
  (∀ r : ReqCode, 0x01 ≤ r.code.toNat ∧ r.code.toNat ≤ 0x0F ∧
    r.response.code = r.code ||| 0x80#8 ∧ r.response.code.toNat = r.code.toNat + 0x80) ∧
  RspCode.unknown.code = 0x90#8 ∧ RspCode.error.code = 0xC0#8 ∧
  ∀ r : RspCode, 0x81 ≤ r.code.toNat ∧ r.code.toNat ≤ 0xC0

/-- Every instruction that has its parts in place is what its encoding decodes to, whatever bytes
follow. Two things in it are the model's choice, not the spec's (log 5): that a frame with a wrong last
byte, an illegal frame by R99, is a term of its row and decodes to it; and that the generic row with a
command byte another row names is left out, since such a frame decodes to the named row. -/
def Obligations.DecodeOfEncodeIsIdentity : Prop :=
  ∀ (i : Instr) (rest : List Byte), i.laidOut = true →
    decodeInstr i.format (encodeInstr i ++ rest) = .ok (i, rest)

/-- The other direction: what the decoder reads has its parts in place, has the format asked for, and
encodes to the very bytes read. That it reads a frame whatever its last byte, and a named command byte
never as the generic row, is the model's choice (log 5). -/
def Obligations.EncodeOfDecodeIsIdentity : Prop :=
  ∀ (f : Format) (bytes rest : List Byte) (i : Instr), decodeInstr f bytes = .ok (i, rest) →
    i.laidOut = true ∧ i.format = f ∧ encodeInstr i ++ rest = bytes

/-- R90, R91, R99: when a byte sequence is no frame, and by what name it is rejected. That the last byte
is no ground for it is the model's choice (log 5). -/
def Obligations.FrameDecoderRejectsByName : Prop :=
  ∀ bytes : List Byte,
    (decodeInstr .frame bytes = .error .short ↔ bytes.length < 5) ∧
    (decodeInstr .frame bytes = .error .head ↔
      5 ≤ bytes.length ∧ ¬ [0x57#8, 0xAB#8] <+: bytes) ∧
    (decodeInstr .frame bytes = .error .addr ↔
      5 ≤ bytes.length ∧ [0x57#8, 0xAB#8] <+: bytes ∧ ¬ [0x57#8, 0xAB#8, 0x00#8] <+: bytes) ∧
    (decodeInstr .frame bytes = .error .trunc ↔
      5 ≤ bytes.length ∧ [0x57#8, 0xAB#8, 0x00#8] <+: bytes ∧
        bytes.length < 6 + (byteAt bytes 4).toNat)

/-! ### Steps -/

/-- R24, R70: a step whose turn is a write to `OP` is the operation the byte selects, and a step whose
turn is one whole wire frame is that frame's row, in the state with that turn taken. That a value above
0xFF written to `OP` counts by its low byte is read from U7 (log 7); that the turns stand in `State` is
log 1, that a pushed frame is one step log 2, and that its last byte may be wrong log 5, all three the
model's choice. -/
def Obligations.StepRunsDecodedInstruction : Prop :=
  (∀ (s : State) (v : Nat) (rest : List Input), s.pending = .event (.wrReg 0x00 v) :: rest →
    step s = exec (decodeOp (BitVec.ofNat 8 v)) { s with pending := rest }) ∧
  (∀ (s : State) (bytes : List Byte) (i : Instr) (rest : List Input),
    s.pending = .push bytes :: rest → decodeInstr .frame bytes = .ok (i, []) →
    step s = exec i { s with pending := rest })

/-- A table word put where the machine takes its next turn is run by the very next step, which leaves
what the host does afterwards as it was. The turns and the placing are the model's (log 1), and so are a
frame in one step (log 2), its unchecked last byte (log 5) and the bytes a table word stands for
(log 8). -/
def Obligations.FetchWordIsRunByTheNextStep : Prop :=
  ∀ (s : State) (nbits w : Nat) (i : Instr), decodeTableWord nbits w = some i →
    step (s.withFetchWord nbits w) = exec i s

/-- R20: with no host access nothing changes the state. -/
def Obligations.NothingChangesWithoutTheHost : Prop :=
  ∀ s : State, s.pending = [] → step s = .next s

/-- R113: `PUSH b0 b1 ...` is that many `PUSH` events, left to right; the one step the model takes for
it ends where those steps end (log 2). -/
def Obligations.PushBurstIsThatManyAppends : Prop :=
  ∀ (s : State) (bytes : List Byte) (rest : List Input), s.pending = .push bytes :: rest →
    step s = Host.Core.run Sys2Proof.core bytes.length
      { s with pending := bytes.map (fun b => .event (pushEvent b)) ++ rest }

/-! ### The append access and the frame rows -/

/-- R65: a write to `RXPUSH` appends the low byte while there is room, and otherwise drops it and sets
`OVF`; it writes no other state. -/
def Obligations.AppendAccess : Prop :=
  ∀ (s : State) (v : Nat) (rest : List Input), s.pending = .event (.wrReg 0x04 v) :: rest →
    (s.rxlen < s.bufCap → ∃ t, step s = .next t ∧
      t = { s with pending := rest, rxlen := s.rxlen + 1, rxbuf := t.rxbuf } ∧
      ∀ k, t.readByte .rxbuf k =
        if k = s.rxlen then BitVec.ofNat 8 v else s.readByte .rxbuf k) ∧
    (s.bufCap ≤ s.rxlen →
      step s = .next { s with pending := rest, status := { s.status with ovf := true } })

/-- FRAME, the thirteen REQ_ rows, the thirteen paired RSP_ rows, RSP_UNKNOWN and RSP_ERROR (every
instruction with a command byte) complete in every state: the frame's bytes, as R90 lays them out, are
appended in order as far as there is room, `OVF` is set if one was dropped, and nothing else changes
(R65, R67, R99; that a frame row means the frame's arrival is log 2, that its last byte may be wrong
log 5). -/
def Obligations.FrameRowsEnterTheReceiveBuffer : Prop :=
  ∀ (i : Instr) (cmd : Byte) (b : FrameBody) (s : State), i.frameParts = some (cmd, b) →
    let bytes := [0x57#8, 0xAB#8, 0x00#8, cmd, b.len] ++ b.payload ++ [b.sum]
    let k := min bytes.length (s.bufCap - s.rxlen)
    ∃ t, exec i s = .next t ∧
      t = { s with
        rxlen := s.rxlen + k
        rxbuf := t.rxbuf
        status := { s.status with ovf := s.status.ovf || decide (k < bytes.length) } } ∧
      ∀ a, t.readByte .rxbuf a =
        if s.rxlen ≤ a ∧ a < s.rxlen + k then byteAt bytes (a - s.rxlen) else s.readByte .rxbuf a

/-- R97, R98, R99: for each of the 29 frame rows, whatever its command byte: after `CLR`, a frame with
a payload of its declared length that arrives and fits is decoded to its own command byte, length and
payload, with `PLAUS` telling whether the code is in 0x81 to 0xC0, if its last byte is the sum; and is
rejected with `SUM`, nothing else written, if it is not. That a frame row means the frame's arrival is
log 2, that its last byte may be wrong log 5. -/
def Obligations.FrameRowThenDecodeDeliversItsCommand : Prop :=
  ∀ (i : Instr) (cmd : Byte) (b : FrameBody) (s : State), i.frameParts = some (cmd, b) →
    b.payload.length = b.len.toNat → 6 + b.len.toNat ≤ s.bufCap →
    ∃ t u, exec .clr s = .next t ∧ exec i t = .next u ∧
      (b.sum = BitVec.ofNat 8 (0x57 + 0xAB + cmd.toNat + b.len.toNat +
          (b.payload.map BitVec.toNat).sum) →
        ∃ v, exec .decode u = .next v ∧ v.decCmd = cmd ∧ v.decLen = b.len ∧
          (∀ k < b.len.toNat, v.readByte .decPay k = byteAt b.payload k) ∧
          v.status = ⟨true, .none, decide (0x81 ≤ cmd.toNat ∧ cmd.toNat ≤ 0xC0), false⟩) ∧
      (b.sum ≠ BitVec.ofNat 8 (0x57 + 0xAB + cmd.toNat + b.len.toNat +
          (b.payload.map BitVec.toNat).sum) →
        exec .decode u = .next { u with status := ⟨false, .sum, false, false⟩ })

/-! ### CLR, reserved codes, CKSUM -/

/-- R185: `CLR`. -/
def Obligations.ClrOperation : Prop :=
  decodeOp 0x00#8 = .clr ∧
  ∀ s : State, exec .clr s =
    .next { s with rxlen := 0, off := 0, status := ⟨true, .none, false, false⟩ }

/-- R187: a write to `OP` of any value 0x07 to 0xFF, and the instruction it is. -/
def Obligations.ReservedCodesReportIllop : Prop :=
  ErrCode.illop.code = 7 ∧
  (∀ (code : Byte) (s : State), exec (.reservedOp code) s =
    .next { s with status := ⟨false, .illop, false, s.status.ovf⟩ }) ∧
  ∀ (s : State) (v : Nat) (rest : List Input), s.pending = .event (.wrReg 0x00 v) :: rest →
    0x07 ≤ v → v ≤ 0xFF →
    step s = .next { s with pending := rest, status := ⟨false, .illop, false, s.status.ovf⟩ }

/-- R122: `CKSUM`. -/
def Obligations.CksumOperation : Prop :=
  decodeOp 0x01#8 = .cksum ∧
  ∀ s : State, exec .cksum s = .next { s with
    sum := BitVec.ofNat 8
      (((List.range s.rxlen).map fun k => (s.readByte .rxbuf k).toNat).sum % 256)
    status := ⟨true, .none, false, s.status.ovf⟩ }

/-- R121: the checksum is what an 8-bit accumulator computes, adds over concatenation, ignores order
and changes that cancel, and sees every change of one byte. -/
def Obligations.ChecksumLaws : Prop :=
  (∀ b, checksum b = b.foldl (fun acc x => acc + x) 0x00#8) ∧
  (∀ a b, checksum (a ++ b) = checksum a + checksum b) ∧
  (∀ a b : List Byte, a.Perm b → checksum a = checksum b) ∧
  (∀ (a b : List Byte) (x y : Byte), x ≠ y → checksum (a ++ x :: b) ≠ checksum (a ++ y :: b)) ∧
  ∀ (a b c : List Byte) (x y d : Byte),
    checksum (a ++ (x + d) :: b ++ (y - d) :: c) = checksum (a ++ x :: b ++ y :: c)

/-- R92, R123: a valid frame's checksum byte is `0x02 + command + N + sum of payload bytes` modulo
256, and the checksum of the whole frame is twice that byte. -/
def Obligations.ChecksumOfAWholeFrame : Prop :=
  ∀ (cmd : Byte) (p : List Byte), p.length ≤ 255 →
    (encodeFrame cmd p).getLast? =
      some (0x02#8 + cmd + BitVec.ofNat 8 p.length + checksum p) ∧
    checksum (encodeFrame cmd p) =
      2#8 * (0x02#8 + cmd + BitVec.ofNat 8 p.length + checksum p)

/-! ### ENCODE and DECODE -/

/-- R132: `ENCODE`, every byte of `TXBUF` and every other part of the state. -/
def Obligations.EncodeOperation : Prop :=
  decodeOp 0x02#8 = .encode ∧
  ∀ s : State, ∃ t, exec .encode s = .next t ∧
    t = { s with
      txbuf := t.txbuf
      txlen := BitVec.ofNat 9 (6 + s.encLen.toNat)
      status := ⟨true, .none, false, s.status.ovf⟩ } ∧
    t.txlen.toNat = 6 + s.encLen.toNat ∧
    ∀ k, t.readByte .txbuf k =
      if k < 5 then byteAt [0x57#8, 0xAB#8, 0x00#8, s.encCmd, s.encLen] k
      else if k < 5 + s.encLen.toNat then s.readByte .encPay (k - 5)
      else if k = 5 + s.encLen.toNat then
        BitVec.ofNat 8 (0x57 + 0xAB + 0x00 + s.encCmd.toNat + s.encLen.toNat +
          ((List.range s.encLen.toNat).map fun j => (s.readByte .encPay j).toNat).sum)
      else s.readByte .txbuf k

/-- R90, R114: the bytes `ENCODE` leaves in `TXBUF` are the encoding of the row its command byte
selects, a well-formed one. That a named command byte selects the named row alone is log 5. -/
def Obligations.EncodedFrameIsTheRowOfItsCommand : Prop :=
  ∀ s t : State, exec .encode s = .next t →
    ∃ i sum, i = frameRow s.encCmd
        ⟨s.encLen, (List.range s.encLen.toNat).map fun k => s.readByte .encPay k, sum⟩ ∧
      i.wellFormed = true ∧
      decodeInstr .frame ((List.range t.txlen.toNat).map fun k => t.readByte .txbuf k) =
        .ok (i, [])

/-- R138: `DECODE` of `RXBUF[OFF..RXLEN-1]`: what it writes on success and on failure, that it writes
nothing else, that repeating it gives the same result, and the codes of its five reasons. -/
def Obligations.DecodeOperation : Prop :=
  decodeOp 0x03#8 = .decode ∧
  [FailReason.short, .head, .addr, .trunc, .sum].map (fun r => (ErrCode.ofFail r).code) =
    [1, 2, 3, 4, 5] ∧
  ∀ s : State,
    let b := (List.range (s.rxlen - s.off)).map fun k => s.readByte .rxbuf (s.off + k)
    (∀ (cmd n : Byte) (p : List Byte), decodeFrame b = .ok cmd n p →
      ∃ t, exec .decode s = .next t ∧
        t = { s with
          decCmd := cmd
          decLen := n
          decPay := t.decPay
          status := ⟨true, .none, decide (0x81 ≤ cmd.toNat ∧ cmd.toNat ≤ 0xC0), s.status.ovf⟩ } ∧
        (∀ k, t.readByte .decPay k =
          if k < n.toNat then byteAt p k else s.readByte .decPay k) ∧
        ∃ u, exec .decode t = .next u ∧ u = { t with decPay := u.decPay } ∧
          ∀ k, u.readByte .decPay k = t.readByte .decPay k) ∧
    ∀ r : FailReason, decodeFrame b = .fail r →
      exec .decode s =
        .next { s with status := ⟨false, ErrCode.ofFail r, false, s.status.ovf⟩ }

/-- R134, R202: `decode` accepts exactly a valid frame of R90 with any bytes after it, and otherwise
reports the first check, in the rule's order, that fails. -/
def Obligations.DecodeChecksInOrder : Prop :=
  ∀ b : List Byte,
    (∀ (cmd n : Byte) (p : List Byte), decodeFrame b = .ok cmd n p ↔
      p.length = n.toNat ∧ ∃ tail, b = [0x57#8, 0xAB#8, 0x00#8, cmd, n] ++ p ++
        [checksum ([0x57#8, 0xAB#8, 0x00#8, cmd, n] ++ p)] ++ tail) ∧
    (decodeFrame b = .fail .short ↔ b.length < 5) ∧
    (decodeFrame b = .fail .head ↔ 5 ≤ b.length ∧ ¬ [0x57#8, 0xAB#8] <+: b) ∧
    (decodeFrame b = .fail .addr ↔
      5 ≤ b.length ∧ [0x57#8, 0xAB#8] <+: b ∧ ¬ [0x57#8, 0xAB#8, 0x00#8] <+: b) ∧
    (decodeFrame b = .fail .trunc ↔
      5 ≤ b.length ∧ [0x57#8, 0xAB#8, 0x00#8] <+: b ∧ b.length < 6 + (byteAt b 4).toNat) ∧
    (decodeFrame b = .fail .sum ↔
      5 ≤ b.length ∧ [0x57#8, 0xAB#8, 0x00#8] <+: b ∧ 6 + (byteAt b 4).toNat ≤ b.length ∧
        checksum (b.take (5 + (byteAt b 4).toNat)) ≠ byteAt b (5 + (byteAt b 4).toNat))

/-- R136: bytes after a valid frame are ignored. -/
def Obligations.DecodeIgnoresBytesAfterTheFrame : Prop :=
  ∀ (f tail : List Byte) (cmd n : Byte) (p : List Byte),
    decodeFrame f = .ok cmd n p → decodeFrame (f ++ tail) = decodeFrame f

/-- R140: the round trip, for the pure functions and at the register level: `ENCODE`, the frame copied
out of `TXBUF` into the emptied receive buffer, `DECODE`. -/
def Obligations.EncodeThenDecodeRoundTrip : Prop :=
  (∀ (cmd : Byte) (p : List Byte), p.length ≤ 255 →
    decodeFrame (encodeFrame cmd p) = .ok cmd (BitVec.ofNat 8 p.length) p) ∧
  ∀ s : State, 6 + s.encLen.toNat ≤ s.bufCap →
    ∃ t u v, exec .encode s = .next t ∧ exec .clr t = .next u ∧
      exec .decode (u.pushBytes ((List.range t.txlen.toNat).map fun k => t.readByte .txbuf k)) =
        .next v ∧
      v.status.ok = true ∧ v.decCmd = s.encCmd ∧ v.decLen = s.encLen ∧
      ∀ k < s.encLen.toNat, v.readByte .decPay k = s.readByte .encPay k

/-- R141, corrected by conflict C4: changing one byte of a valid frame, other than the length byte,
makes `decode` fail, whatever follows; a raised length byte with nothing following is `TRUNC`; a
lowered one can decode. -/
def Obligations.SingleByteCorruptionIsDetected : Prop :=
  (∀ (cmd x : Byte) (p tail : List Byte) (k : Nat), p.length ≤ 255 → k < 6 + p.length → k ≠ 4 →
    x ≠ byteAt (encodeFrame cmd p) k →
    ∃ r, decodeFrame ((encodeFrame cmd p).set k x ++ tail) = .fail r) ∧
  (∀ (cmd x : Byte) (p : List Byte), p.length < x.toNat →
    decodeFrame ((encodeFrame cmd p).set 4 x) = .fail .trunc) ∧
  encodeFrame 0x81#8 [0x83#8] = [0x57#8, 0xAB#8, 0x00#8, 0x81#8, 0x01#8, 0x83#8, 0x07#8] ∧
  decodeFrame [0x57#8, 0xAB#8, 0x00#8, 0x81#8, 0x00#8, 0x83#8, 0x07#8] = .ok 0x81#8 0x00#8 []

/-- R131: different commands or payloads give different frames. -/
def Obligations.EncodeIsInjective : Prop :=
  ∀ (cmd cmd' : Byte) (p p' : List Byte), p.length ≤ 255 → p'.length ≤ 255 →
    encodeFrame cmd p = encodeFrame cmd' p' → cmd = cmd' ∧ p = p'

/-! ### FIND -/

/-- R151: `find` is the smallest index at which `decode` succeeds, with the length byte there, and
`None` if there is no such index. -/
def Obligations.FindIsTheSmallestIndex : Prop :=
  ∀ b : List Byte,
    (∀ (i : Nat) (n : Byte), findFrame b = some (i, n) ↔
      n = byteAt b (i + 4) ∧ (∃ cmd m p, decodeFrame (b.drop i) = .ok cmd m p) ∧
        ∀ j < i, ∃ r, decodeFrame (b.drop j) = .fail r) ∧
    (findFrame b = none ↔ ∀ i, ∃ r, decodeFrame (b.drop i) = .fail r)

/-- R153: `FIND` writes the index and the length byte `find` gives (R151: the smallest index at which
`decode` succeeds), or reports `NOTFOUND` when there is none; nothing else changes. -/
def Obligations.FindOperation : Prop :=
  decodeOp 0x04#8 = .find ∧ ErrCode.notfound.code = 6 ∧
  ∀ s : State,
    let b := (List.range s.rxlen).map fun k => s.readByte .rxbuf k
    (∀ i, (∃ cmd n p, decodeFrame (b.drop i) = .ok cmd n p) →
      (∀ j < i, ∃ r, decodeFrame (b.drop j) = .fail r) →
      exec .find s = .next { s with
        off := i
        flen := s.readByte .rxbuf (i + 4)
        status := ⟨true, .none, false, s.status.ovf⟩ }) ∧
    ((∀ i, ∃ r, decodeFrame (b.drop i) = .fail r) →
      exec .find s = .next { s with status := ⟨false, .notfound, false, s.status.ovf⟩ })

/-- R154: after a successful `FIND` the frame lies at `OFF`, whole and inside the counted bytes. -/
def Obligations.FindLocatesAWholeFrame : Prop :=
  ∀ s t : State, exec .find s = .next t → t.status.ok = true →
    t.off + 6 + t.flen.toNat ≤ s.rxlen ∧
    t.readByte .rxbuf t.off = 0x57#8 ∧ t.readByte .rxbuf (t.off + 1) = 0xAB#8 ∧
    t.readByte .rxbuf (t.off + 2) = 0x00#8 ∧ t.readByte .rxbuf (t.off + 4) = t.flen ∧
    t.readByte .rxbuf (t.off + 5 + t.flen.toNat) =
      BitVec.ofNat 8 ((List.range (5 + t.flen.toNat)).map fun k =>
        (t.readByte .rxbuf (t.off + k)).toNat).sum

/-- R157: a valid frame behind leading bytes at none of which `decode` succeeds is found where it
begins, whatever follows it. -/
def Obligations.FindSkipsLeadingGarbage : Prop :=
  ∀ (g p tail : List Byte) (cmd : Byte), p.length ≤ 255 →
    (∀ i < g.length, ∃ r, decodeFrame ((g ++ encodeFrame cmd p ++ tail).drop i) = .fail r) →
    findFrame (g ++ encodeFrame cmd p ++ tail) = some (g.length, BitVec.ofNat 8 p.length)

/-- R152: how far beyond `L - 6` the scan goes makes no difference. -/
def Obligations.ScanBoundIsUnobservable : Prop :=
  ∀ (b : List Byte) (tries : Nat), b.length - 5 ≤ tries → scanFrom b tries 0 = findFrame b

/-- R155: whatever the host does between a successful `FIND` and a `DECODE`, short of `CLR`, reset
and a write to `OFF` (more pushes, other operations, reads and writes of arrays, another `FIND`), the
`DECODE` succeeds with `DEC_LEN = FLEN`. How the host's turns are written down is the model's (log 1;
log 2 for a `PUSH` of many bytes), and a write to `OP` counts by its low byte (log 7). -/
def Obligations.FindThenDecodeSucceeds : Prop :=
  ∀ (s t u : State) (between : List Input), exec .find s = .next t → t.status.ok = true →
    (∀ x ∈ between, x ≠ .event .reset ∧ (∀ v, x ≠ .event (.wrReg 0x02 v)) ∧
      ∀ v, x = .event (.wrReg 0x00 v) → decodeOp (BitVec.ofNat 8 v) ≠ .clr) →
    Host.Core.run Sys2Proof.core between.length { t with pending := between } = .next u →
    ∃ v, exec .decode u = .next v ∧ v.status.ok = true ∧ v.decLen = u.flen ∧
      v.decCmd = u.readByte .rxbuf (u.off + 3)

/-! ### TOHOST and TOWIRE -/

/-- R173, R174: both operations, the same in everything: ten bytes of `REC` move, all others
stay, and nothing else changes but `STATUS`. -/
def Obligations.ConverterOperations : Prop :=
  decodeOp 0x05#8 = .tohost ∧ decodeOp 0x06#8 = .towire ∧
  ∀ s : State, ∃ t, exec .tohost s = .next t ∧ exec .towire s = .next t ∧
    t = { s with cfgRec := t.cfgRec, status := ⟨true, .none, false, s.status.ovf⟩ } ∧
    t.readByte .cfgRec 3 = s.readByte .cfgRec 6 ∧ t.readByte .cfgRec 4 = s.readByte .cfgRec 5 ∧
    t.readByte .cfgRec 5 = s.readByte .cfgRec 4 ∧ t.readByte .cfgRec 6 = s.readByte .cfgRec 3 ∧
    t.readByte .cfgRec 9 = s.readByte .cfgRec 10 ∧ t.readByte .cfgRec 10 = s.readByte .cfgRec 9 ∧
    t.readByte .cfgRec 15 = s.readByte .cfgRec 16 ∧
    t.readByte .cfgRec 16 = s.readByte .cfgRec 15 ∧
    t.readByte .cfgRec 17 = s.readByte .cfgRec 18 ∧
    t.readByte .cfgRec 18 = s.readByte .cfgRec 17 ∧
    ∀ k, k ∉ [3, 4, 5, 6, 9, 10, 15, 16, 17, 18] → t.readByte .cfgRec k = s.readByte .cfgRec k

/-- R172: `swap` is an involution, and any two conversions, in whichever order, restore `REC`. -/
def Obligations.ConversionIsAnInvolution : Prop :=
  (∀ r : List Byte, r.length = 50 → swapRecord (swapRecord r) = r) ∧
  ∀ s t u : State, (exec .tohost s = .next t ∨ exec .towire s = .next t) →
    (exec .tohost t = .next u ∨ exec .towire t = .next u) →
    ∀ k, u.readByte .cfgRec k = s.readByte .cfgRec k

/-- R176: the little-endian number after a conversion is the big-endian number before it, for each of
the four fields, and conversely. -/
def Obligations.ConversionKeepsTheNumbers : Prop :=
  ∀ s t : State, exec .tohost s = .next t ∨ exec .towire s = .next t →
    let field (u : State) (k n : Nat) := (List.range n).map fun j => u.readByte .cfgRec (k + j)
    (leValue (field t 3 4) = beValue (field s 3 4) ∧
      beValue (field t 3 4) = leValue (field s 3 4)) ∧
    ∀ k, k = 9 ∨ k = 15 ∨ k = 17 →
      leValue (field t k 2) = beValue (field s k 2) ∧
      beValue (field t k 2) = leValue (field s k 2)

/-- R102: the ConfigRecord's fields follow each other without a gap and fill 50 bytes, and the offsets
of the converted ones are those the converter writes (R170, R173). -/
def Obligations.ConfigRecordLayout : Prop :=
  (∀ k < 15, (configFields.getD (k + 1) ⟨"", 0, 0, false⟩).offset =
    (configFields.getD k ⟨"", 0, 0, false⟩).offset +
      (configFields.getD k ⟨"", 0, 0, false⟩).size) ∧
  configFields.length = 16 ∧ (configFields.map ConfigField.size).sum = 50 ∧
  (configFields.filter ConfigField.converted).flatMap
    (fun f => (List.range f.size).map (f.offset + ·)) = swappedOffsets

/-! ### The whole machine -/

/-- Every instruction of the table completes in every state. For the operations, by R31, R32, R47, R70
and R206: each rewrites `OK`, `ERR` and `PLAUS` as a whole (`OK` exactly when `ERR` is 0, `PLAUS` only
after a successful `DECODE` of a plausible code) and keeps `OVF`, which `CLR` clears; which value `OK`
takes is each operation's own statement. For the frame rows it is the model's choice, not the spec's
(log 2): a frame row means the frame's arrival, so it leaves `OK`, `ERR` and `PLAUS` alone and can only
set `OVF`, as R65 says of each byte appended. -/
def Obligations.EveryInstructionCompletes : Prop :=
  ∀ (i : Instr) (s : State), ∃ t, exec i s = .next t ∧
    (i.format = .op8 →
      (t.status.ok = true ↔ t.status.err = .none) ∧
      (t.status.plaus = true ↔
        i = .decode ∧ t.status.ok = true ∧ 0x81 ≤ t.decCmd.toNat ∧ t.decCmd.toNat ≤ 0xC0) ∧
      t.status.ovf = (s.status.ovf && decide (i ≠ .clr))) ∧
    (i.format = .frame →
      t.status = { s.status with ovf := t.status.ovf } ∧
      (s.status.ovf = true → t.status.ovf = true))

/-- R205: the state after a failed operation is the state before it with `STATUS[4:0]` replaced: `OK`
0, a reason, `PLAUS` 0. -/
def Obligations.FailedOperationsChangeOnlyStatus : Prop :=
  ∀ (i : Instr) (s t : State), i.format = .op8 → exec i s = .next t → t.status.ok = false →
    t.status.err ≠ .none ∧ t = { s with status := ⟨false, t.status.err, false, s.status.ovf⟩ }

/-- R200, R203: which operation raises which reason, and that `CLR`, `CKSUM`, `ENCODE`, `TOHOST` and
`TOWIRE` raise nothing. -/
def Obligations.EachReasonHasItsOperation : Prop :=
  ∀ (i : Instr) (s t : State), i.format = .op8 → exec i s = .next t →
    (t.status.err ∈ [ErrCode.short, .head, .addr, .trunc, .sum] → i = .decode) ∧
    (t.status.err = .notfound → i = .find) ∧
    (t.status.err = .illop → ∃ code, i = .reservedOp code) ∧
    ((i = .clr ∨ i = .cksum ∨ i = .encode ∨ i = .tohost ∨ i = .towire) →
      t.status.ok = true ∧ t.status.err = .none)

/-- R23, R32, R40: which host events write each register, each array and `STATUS`; the parameter
`BUF_CAP` is written by none. A write to `OP` counts by its low byte (log 7). -/
def Obligations.WritersOfEachPlace : Prop :=
  ∀ (s t : State) (e : HostEvent) (rest : List Input), s.pending = .event e :: rest →
    step s = .next t →
    let op (i : Instr) := ∃ v, e = .wrReg 0x00 v ∧ decodeOp (BitVec.ofNat 8 v) = i
    let wr (n : Nat) := ∃ v, e = .wrReg n v
    let st (sp : Space) := ∃ k v, e = .memWrite sp k v
    t.bufCap = s.bufCap ∧ t.pending = rest ∧
    (t.status ≠ s.status → e = .reset ∨ wr 0x00 ∨ wr 0x04 ∧ t.status = { s.status with ovf := true }) ∧
    (t.off ≠ s.off → e = .reset ∨ op .find ∧ t.status.ok = true ∨ op .clr ∨ wr 0x02) ∧
    (t.rxlen ≠ s.rxlen → e = .reset ∨ op .clr ∨ wr 0x04) ∧
    (t.sum ≠ s.sum → e = .reset ∨ op .cksum) ∧
    (t.encCmd ≠ s.encCmd → e = .reset ∨ wr 0x06) ∧
    (t.encLen ≠ s.encLen → e = .reset ∨ wr 0x07) ∧
    (t.txlen ≠ s.txlen → e = .reset ∨ op .encode) ∧
    (t.decCmd ≠ s.decCmd ∨ t.decLen ≠ s.decLen →
      e = .reset ∨ op .decode ∧ t.status.ok = true) ∧
    (t.flen ≠ s.flen → e = .reset ∨ op .find ∧ t.status.ok = true) ∧
    (t.rxbuf ≠ s.rxbuf → e = .reset ∨ wr 0x04) ∧
    (t.encPay ≠ s.encPay → e = .reset ∨ st .encPay) ∧
    (t.txbuf ≠ s.txbuf → e = .reset ∨ op .encode) ∧
    (t.decPay ≠ s.decPay → e = .reset ∨ op .decode ∧ t.status.ok = true) ∧
    (t.cfgRec ≠ s.cfgRec → e = .reset ∨ op .tohost ∨ op .towire ∨ st .cfgRec)

/-- R76, R41: no operation reads an array byte beyond the counted length: two states that differ only
in uncounted bytes of `RXBUF` and `ENC_PAY` and in the result arrays get the same registers, the same
`STATUS`, the same `REC`, and the same counted result bytes of the operation just run. -/
def Obligations.UncountedBytesAreNeverRead : Prop :=
  ∀ (i : Instr) (s s' : State), i.format = .op8 →
    s' = { s with
      rxbuf := s'.rxbuf, encPay := s'.encPay, txbuf := s'.txbuf, decPay := s'.decPay } →
    (∀ k < s.rxlen, s'.readByte .rxbuf k = s.readByte .rxbuf k) →
    (∀ k < s.encLen.toNat, s'.readByte .encPay k = s.readByte .encPay k) →
    ∃ t t', exec i s = .next t ∧ exec i s' = .next t' ∧
      t' = { t with
        rxbuf := s'.rxbuf, encPay := s'.encPay, txbuf := t'.txbuf, decPay := t'.decPay } ∧
      (i = .encode → ∀ k < t.txlen.toNat, t'.readByte .txbuf k = t.readByte .txbuf k) ∧
      (i = .decode → t.status.ok = true →
        ∀ k < t.decLen.toNat, t'.readByte .decPay k = t.readByte .decPay k)

/-- R8: `IDX_W` is the smallest width `w` with `BUF_CAP < 2^w`. -/
def Obligations.IndexWidthIsTheSmallest : Prop :=
  ∀ s : State, Config.minFrame ≤ s.bufCap →
    s.bufCap < 2 ^ s.idxW ∧ ∀ w, s.bufCap < 2 ^ w → s.idxW ≤ w

/-! ### Host accesses -/

/-- R63: a register read gives the host the register's value, `OP` and `RXPUSH` read as 0, and no
state of the block changes. -/
def Obligations.RegisterReads : Prop :=
  ∀ (s : State) (n : Nat) (rest : List Input), s.pending = .event (.rdReg n) :: rest →
    let gives (v : Nat) := step s = .next { s with pending := rest, replies := v :: s.replies }
    (n = 0x00 → gives 0) ∧ (n = 0x01 → gives s.status.toByte.toNat) ∧ (n = 0x02 → gives s.off) ∧
    (n = 0x03 → gives s.rxlen) ∧ (n = 0x04 → gives 0) ∧ (n = 0x05 → gives s.sum.toNat) ∧
    (n = 0x06 → gives s.encCmd.toNat) ∧ (n = 0x07 → gives s.encLen.toNat) ∧
    (n = 0x08 → gives s.txlen.toNat) ∧ (n = 0x09 → gives s.decCmd.toNat) ∧
    (n = 0x0A → gives s.decLen.toNat) ∧ (n = 0x0B → gives s.flen.toNat)

/-- R64, the registers: `OFF`, `ENC_CMD` and `ENC_LEN` take the low bits of the value written; a write
to a read-only register is ignored. -/
def Obligations.RegisterWrites : Prop :=
  ∀ (s : State) (n v : Nat) (rest : List Input), s.pending = .event (.wrReg n v) :: rest →
    (n = 0x02 → step s = .next { s with pending := rest, off := v % 2 ^ s.idxW }) ∧
    (n = 0x06 → step s = .next { s with pending := rest, encCmd := BitVec.ofNat 8 v }) ∧
    (n = 0x07 → step s = .next { s with pending := rest, encLen := BitVec.ofNat 8 v }) ∧
    (n ∈ [0x01, 0x03, 0x05, 0x08, 0x09, 0x0A, 0x0B] → step s = .next { s with pending := rest })

/-- R64, the arrays: a read in range gives the stored byte and changes nothing; a write in range
changes the one byte of `ENC_PAY` or `REC`, and is ignored for the three read-only arrays. -/
def Obligations.ArrayAccesses : Prop :=
  (∀ (s : State) (sp : Space) (i : Nat) (rest : List Input),
    s.pending = .event (.memRead sp i) :: rest → i < s.size sp →
    step s =
      .next { s with pending := rest, replies := (s.readByte sp i).toNat :: s.replies }) ∧
  ∀ (s : State) (sp : Space) (i v : Nat) (rest : List Input),
    s.pending = .event (.memWrite sp i v) :: rest → i < s.size sp →
    ∃ t, step s = .next t ∧
      ((sp = .encPay ∨ sp = .cfgRec) →
        t = { s with pending := rest, encPay := t.encPay, cfgRec := t.cfgRec } ∧
        ∀ sp' k, t.readByte sp' k =
          if sp' = sp ∧ k = i then BitVec.ofNat 8 v else s.readByte sp' k) ∧
      ((sp = .rxbuf ∨ sp = .txbuf ∨ sp = .decPay) → t = { s with pending := rest })

/-- R66, U2: an access to a register number above 0x0B or to an index at or above an array's size is
refused, by name. -/
def Obligations.AccessesThatNameNothingAreRefused : Prop :=
  ∀ (s : State) (rest : List Input),
    (∀ n, s.pending = .event (.rdReg n) :: rest → 0x0B < n →
      step s = .refused (.noSuchRegister n)) ∧
    (∀ n v, s.pending = .event (.wrReg n v) :: rest → 0x0B < n →
      step s = .refused (.noSuchRegister n)) ∧
    (∀ sp i, s.pending = .event (.memRead sp i) :: rest → s.size sp ≤ i →
      step s = .refused (.noSuchIndex sp i)) ∧
    ∀ sp i v, s.pending = .event (.memWrite sp i v) :: rest → s.size sp ≤ i →
      step s = .refused (.noSuchIndex sp i)

/-! ### Reset and the status byte -/

/-- R46: after reset every scalar register reads 0 and the contents of the arrays are unspecified. The
second clause says it in the model's own form, a choice (log 4): an array lists the bytes written since
reset, and lists none. -/
def Obligations.ResetValues : Prop :=
  (∀ n ≤ 0x0B, State.reset.readReg n = some 0) ∧
  ∀ sp k, Memory.lookup (State.reset.array sp) k = none

/-- R230: the `Reset` event gives every scalar register its reset value and forgets every array byte;
the parameter, the host's remaining events and the replies it holds are no state of the block (how
unspecified bytes are held, a new draw of free values, is the model's: log 4). -/
def Obligations.ResetEvent : Prop :=
  ∀ (s : State) (rest : List Input), s.pending = .event .reset :: rest →
    ∃ t, step s = .next t ∧ (∀ n ≤ 0x0B, t.readReg n = some 0) ∧
      (∀ sp k, t.readByte sp k = Config.freeByte (s.draw + 1) sp k) ∧
      t.bufCap = s.bufCap ∧ t.pending = rest ∧ t.replies = s.replies

/-- R232: nothing survives reset: where two machines of one capacity differ before it, in registers,
flags or bytes, they agree after it. -/
def Obligations.NothingSurvivesReset : Prop :=
  ∀ (s s' : State) (rest : List Input), s.pending = .event .reset :: rest →
    s'.pending = .event .reset :: rest → s'.bufCap = s.bufCap → s'.draw = s.draw →
    s'.replies = s.replies → step s' = step s

/-- R235: every operation is defined from the reset state, at every capacity. -/
def Obligations.OperationsFromReset : Prop :=
  ∀ cap : Nat,
    let s := { State.reset with bufCap := cap }
    exec .find s = .next { s with status := ⟨false, .notfound, false, false⟩ } ∧
    exec .decode s = .next { s with status := ⟨false, .short, false, false⟩ } ∧
    exec .cksum s = .next { s with status := ⟨true, .none, false, false⟩ } ∧
    exec .clr s = .next { s with status := ⟨true, .none, false, false⟩ } ∧
    exec .encode s = .next { s with
      txbuf := [(0, 0x57#8), (1, 0xAB#8), (2, 0x00#8), (3, 0x00#8), (4, 0x00#8), (5, 0x02#8)]
      txlen := 6#9
      status := ⟨true, .none, false, false⟩ } ∧
    (∃ t, exec .tohost s = .next t) ∧ ∃ t, exec .towire s = .next t

/-- R31, R200: the bits of `STATUS` and the codes of `ERR`. -/
def Obligations.StatusByteLayout : Prop :=
  ∀ st : Status,
    st.toByte.getLsbD 0 = st.ok ∧ (st.toByte.toNat / 2) % 8 = st.err.code ∧
    st.toByte.getLsbD 4 = st.plaus ∧ st.toByte.getLsbD 5 = st.ovf ∧
    st.toByte.getLsbD 6 = false ∧ st.toByte.getLsbD 7 = false ∧
    [ErrCode.none, .short, .head, .addr, .trunc, .sum, .notfound, .illop].map ErrCode.code =
      [0, 1, 2, 3, 4, 5, 6, 7]

/-! ### The invariant -/

/-- Whatever the host does next, a step from a state that meets the invariant gives one that meets
it. -/
def Obligations.StepKeepsTheInvariant : Prop :=
  ∀ s t : State, s.Inv → step s = .next t → t.Inv

/-- The state right after reset meets the invariant, at every capacity R8 allows. -/
def Obligations.ResetMeetsTheInvariant : Prop :=
  State.reset.Inv ∧ ∀ cap, Config.minFrame ≤ cap → { State.reset with bufCap := cap : State }.Inv

/-- Every state a machine can come to meets the invariant: `RXLEN` never exceeds `BUF_CAP`, `OFF` fits
its width, `TXLEN` is 0 or 6 to 261 (R29), every array is in canonical form within its size, no
counted byte is unspecified, `ERR` is 0 when `OK` is 1 (R31). -/
def Obligations.ReachableStatesMeetTheInvariant : Prop :=
  ∀ s : State, Reachable s → s.Inv
end

