-- ==== Sys2Proof/Laws/State.lean ====
section
/-! SUPPORT. What each named update of the state does to each field, and what reading an array sees of
it. -/

namespace Sys2Proof.Laws

open Sys2Proof.Machine

variable (s : State)

/-! ### `succeed` -/

@[simp] theorem succeed_status (p : Bool) : (s.succeed p).status = s.status.succeeded p := rfl
@[simp] theorem succeed_off (p : Bool) : (s.succeed p).off = s.off := rfl
@[simp] theorem succeed_rxlen (p : Bool) : (s.succeed p).rxlen = s.rxlen := rfl
@[simp] theorem succeed_sum (p : Bool) : (s.succeed p).sum = s.sum := rfl
@[simp] theorem succeed_encCmd (p : Bool) : (s.succeed p).encCmd = s.encCmd := rfl
@[simp] theorem succeed_encLen (p : Bool) : (s.succeed p).encLen = s.encLen := rfl
@[simp] theorem succeed_txlen (p : Bool) : (s.succeed p).txlen = s.txlen := rfl
@[simp] theorem succeed_decCmd (p : Bool) : (s.succeed p).decCmd = s.decCmd := rfl
@[simp] theorem succeed_decLen (p : Bool) : (s.succeed p).decLen = s.decLen := rfl
@[simp] theorem succeed_flen (p : Bool) : (s.succeed p).flen = s.flen := rfl
@[simp] theorem succeed_rxbuf (p : Bool) : (s.succeed p).rxbuf = s.rxbuf := rfl
@[simp] theorem succeed_encPay (p : Bool) : (s.succeed p).encPay = s.encPay := rfl
@[simp] theorem succeed_txbuf (p : Bool) : (s.succeed p).txbuf = s.txbuf := rfl
@[simp] theorem succeed_decPay (p : Bool) : (s.succeed p).decPay = s.decPay := rfl
@[simp] theorem succeed_cfgRec (p : Bool) : (s.succeed p).cfgRec = s.cfgRec := rfl
@[simp] theorem succeed_bufCap (p : Bool) : (s.succeed p).bufCap = s.bufCap := rfl
@[simp] theorem succeed_draw (p : Bool) : (s.succeed p).draw = s.draw := rfl
@[simp] theorem succeed_pending (p : Bool) : (s.succeed p).pending = s.pending := rfl
@[simp] theorem succeed_replies (p : Bool) : (s.succeed p).replies = s.replies := rfl
@[simp] theorem succeed_idxW (p : Bool) : (s.succeed p).idxW = s.idxW := rfl
@[simp] theorem succeed_array (p : Bool) (sp : Space) : (s.succeed p).array sp = s.array sp := by cases sp <;> rfl
@[simp] theorem succeed_size (p : Bool) (sp : Space) : (s.succeed p).size sp = s.size sp := by cases sp <;> rfl
@[simp] theorem succeed_readByte (p : Bool) (sp : Space) (k : Nat) : (s.succeed p).readByte sp k = s.readByte sp k := by
  cases sp <;> rfl

/-! ### `raise` -/

@[simp] theorem raise_status (e : ErrCode) : (s.raise e).status = s.status.failed e := rfl
@[simp] theorem raise_off (e : ErrCode) : (s.raise e).off = s.off := rfl
@[simp] theorem raise_rxlen (e : ErrCode) : (s.raise e).rxlen = s.rxlen := rfl
@[simp] theorem raise_sum (e : ErrCode) : (s.raise e).sum = s.sum := rfl
@[simp] theorem raise_encCmd (e : ErrCode) : (s.raise e).encCmd = s.encCmd := rfl
@[simp] theorem raise_encLen (e : ErrCode) : (s.raise e).encLen = s.encLen := rfl
@[simp] theorem raise_txlen (e : ErrCode) : (s.raise e).txlen = s.txlen := rfl
@[simp] theorem raise_decCmd (e : ErrCode) : (s.raise e).decCmd = s.decCmd := rfl
@[simp] theorem raise_decLen (e : ErrCode) : (s.raise e).decLen = s.decLen := rfl
@[simp] theorem raise_flen (e : ErrCode) : (s.raise e).flen = s.flen := rfl
@[simp] theorem raise_rxbuf (e : ErrCode) : (s.raise e).rxbuf = s.rxbuf := rfl
@[simp] theorem raise_encPay (e : ErrCode) : (s.raise e).encPay = s.encPay := rfl
@[simp] theorem raise_txbuf (e : ErrCode) : (s.raise e).txbuf = s.txbuf := rfl
@[simp] theorem raise_decPay (e : ErrCode) : (s.raise e).decPay = s.decPay := rfl
@[simp] theorem raise_cfgRec (e : ErrCode) : (s.raise e).cfgRec = s.cfgRec := rfl
@[simp] theorem raise_bufCap (e : ErrCode) : (s.raise e).bufCap = s.bufCap := rfl
@[simp] theorem raise_draw (e : ErrCode) : (s.raise e).draw = s.draw := rfl
@[simp] theorem raise_pending (e : ErrCode) : (s.raise e).pending = s.pending := rfl
@[simp] theorem raise_replies (e : ErrCode) : (s.raise e).replies = s.replies := rfl
@[simp] theorem raise_idxW (e : ErrCode) : (s.raise e).idxW = s.idxW := rfl
@[simp] theorem raise_array (e : ErrCode) (sp : Space) : (s.raise e).array sp = s.array sp := by cases sp <;> rfl
@[simp] theorem raise_size (e : ErrCode) (sp : Space) : (s.raise e).size sp = s.size sp := by cases sp <;> rfl
@[simp] theorem raise_readByte (e : ErrCode) (sp : Space) (k : Nat) : (s.raise e).readByte sp k = s.readByte sp k := by
  cases sp <;> rfl

/-! ### `reply` -/

@[simp] theorem reply_status (v : Nat) : (s.reply v).status = s.status := rfl
@[simp] theorem reply_off (v : Nat) : (s.reply v).off = s.off := rfl
@[simp] theorem reply_rxlen (v : Nat) : (s.reply v).rxlen = s.rxlen := rfl
@[simp] theorem reply_sum (v : Nat) : (s.reply v).sum = s.sum := rfl
@[simp] theorem reply_encCmd (v : Nat) : (s.reply v).encCmd = s.encCmd := rfl
@[simp] theorem reply_encLen (v : Nat) : (s.reply v).encLen = s.encLen := rfl
@[simp] theorem reply_txlen (v : Nat) : (s.reply v).txlen = s.txlen := rfl
@[simp] theorem reply_decCmd (v : Nat) : (s.reply v).decCmd = s.decCmd := rfl
@[simp] theorem reply_decLen (v : Nat) : (s.reply v).decLen = s.decLen := rfl
@[simp] theorem reply_flen (v : Nat) : (s.reply v).flen = s.flen := rfl
@[simp] theorem reply_rxbuf (v : Nat) : (s.reply v).rxbuf = s.rxbuf := rfl
@[simp] theorem reply_encPay (v : Nat) : (s.reply v).encPay = s.encPay := rfl
@[simp] theorem reply_txbuf (v : Nat) : (s.reply v).txbuf = s.txbuf := rfl
@[simp] theorem reply_decPay (v : Nat) : (s.reply v).decPay = s.decPay := rfl
@[simp] theorem reply_cfgRec (v : Nat) : (s.reply v).cfgRec = s.cfgRec := rfl
@[simp] theorem reply_bufCap (v : Nat) : (s.reply v).bufCap = s.bufCap := rfl
@[simp] theorem reply_draw (v : Nat) : (s.reply v).draw = s.draw := rfl
@[simp] theorem reply_pending (v : Nat) : (s.reply v).pending = s.pending := rfl
@[simp] theorem reply_replies (v : Nat) : (s.reply v).replies = v :: s.replies := rfl
@[simp] theorem reply_idxW (v : Nat) : (s.reply v).idxW = s.idxW := rfl
@[simp] theorem reply_array (v : Nat) (sp : Space) : (s.reply v).array sp = s.array sp := by cases sp <;> rfl
@[simp] theorem reply_size (v : Nat) (sp : Space) : (s.reply v).size sp = s.size sp := by cases sp <;> rfl
@[simp] theorem reply_readByte (v : Nat) (sp : Space) (k : Nat) : (s.reply v).readByte sp k = s.readByte sp k := by
  cases sp <;> rfl

/-! ### `afterReset` -/

@[simp] theorem afterReset_status : (s.afterReset).status = ⟨false, .none, false, false⟩ := rfl
@[simp] theorem afterReset_off : (s.afterReset).off = 0 := rfl
@[simp] theorem afterReset_rxlen : (s.afterReset).rxlen = 0 := rfl
@[simp] theorem afterReset_sum : (s.afterReset).sum = 0#8 := rfl
@[simp] theorem afterReset_encCmd : (s.afterReset).encCmd = 0#8 := rfl
@[simp] theorem afterReset_encLen : (s.afterReset).encLen = 0#8 := rfl
@[simp] theorem afterReset_txlen : (s.afterReset).txlen = 0#9 := rfl
@[simp] theorem afterReset_decCmd : (s.afterReset).decCmd = 0#8 := rfl
@[simp] theorem afterReset_decLen : (s.afterReset).decLen = 0#8 := rfl
@[simp] theorem afterReset_flen : (s.afterReset).flen = 0#8 := rfl
@[simp] theorem afterReset_rxbuf : (s.afterReset).rxbuf = [] := rfl
@[simp] theorem afterReset_encPay : (s.afterReset).encPay = [] := rfl
@[simp] theorem afterReset_txbuf : (s.afterReset).txbuf = [] := rfl
@[simp] theorem afterReset_decPay : (s.afterReset).decPay = [] := rfl
@[simp] theorem afterReset_cfgRec : (s.afterReset).cfgRec = [] := rfl
@[simp] theorem afterReset_bufCap : (s.afterReset).bufCap = s.bufCap := rfl
@[simp] theorem afterReset_draw : (s.afterReset).draw = s.draw + 1 := rfl
@[simp] theorem afterReset_pending : (s.afterReset).pending = s.pending := rfl
@[simp] theorem afterReset_replies : (s.afterReset).replies = s.replies := rfl
@[simp] theorem afterReset_idxW : (s.afterReset).idxW = s.idxW := rfl
@[simp] theorem afterReset_size (sp : Space) : (s.afterReset).size sp = s.size sp := by cases sp <;> rfl

@[simp] theorem afterReset_array (sp : Space) : s.afterReset.array sp = [] := by cases sp <;> rfl

@[simp] theorem afterReset_readByte (sp : Space) (k : Nat) :
    s.afterReset.readByte sp k = Config.freeByte (s.draw + 1) sp k := by cases sp <;> rfl

/-! ### `setArray` -/

@[simp] theorem setArray_array (sp sp' : Space) (m : Memory) :
    (s.setArray sp m).array sp' = if sp' = sp then m else s.array sp' := by
  cases sp <;> cases sp' <;> rfl

@[simp] theorem setArray_size (sp sp' : Space) (m : Memory) :
    (s.setArray sp m).size sp' = s.size sp' := by cases sp <;> cases sp' <;> rfl

@[simp] theorem setArray_status (sp : Space) (m : Memory) : (s.setArray sp m).status = s.status := by
  cases sp <;> rfl
@[simp] theorem setArray_off (sp : Space) (m : Memory) : (s.setArray sp m).off = s.off := by
  cases sp <;> rfl
@[simp] theorem setArray_rxlen (sp : Space) (m : Memory) : (s.setArray sp m).rxlen = s.rxlen := by
  cases sp <;> rfl
@[simp] theorem setArray_sum (sp : Space) (m : Memory) : (s.setArray sp m).sum = s.sum := by
  cases sp <;> rfl
@[simp] theorem setArray_encCmd (sp : Space) (m : Memory) : (s.setArray sp m).encCmd = s.encCmd := by
  cases sp <;> rfl
@[simp] theorem setArray_encLen (sp : Space) (m : Memory) : (s.setArray sp m).encLen = s.encLen := by
  cases sp <;> rfl
@[simp] theorem setArray_txlen (sp : Space) (m : Memory) : (s.setArray sp m).txlen = s.txlen := by
  cases sp <;> rfl
@[simp] theorem setArray_decCmd (sp : Space) (m : Memory) : (s.setArray sp m).decCmd = s.decCmd := by
  cases sp <;> rfl
@[simp] theorem setArray_decLen (sp : Space) (m : Memory) : (s.setArray sp m).decLen = s.decLen := by
  cases sp <;> rfl
@[simp] theorem setArray_flen (sp : Space) (m : Memory) : (s.setArray sp m).flen = s.flen := by
  cases sp <;> rfl
@[simp] theorem setArray_bufCap (sp : Space) (m : Memory) : (s.setArray sp m).bufCap = s.bufCap := by
  cases sp <;> rfl
@[simp] theorem setArray_draw (sp : Space) (m : Memory) : (s.setArray sp m).draw = s.draw := by
  cases sp <;> rfl
@[simp] theorem setArray_pending (sp : Space) (m : Memory) : (s.setArray sp m).pending = s.pending := by
  cases sp <;> rfl
@[simp] theorem setArray_replies (sp : Space) (m : Memory) : (s.setArray sp m).replies = s.replies := by
  cases sp <;> rfl

/-! ### `STATUS` -/

@[simp] theorem succeeded_ok (p : Bool) (st : Status) : (st.succeeded p).ok = true := rfl
@[simp] theorem succeeded_err (p : Bool) (st : Status) : (st.succeeded p).err = .none := rfl
@[simp] theorem succeeded_plaus (p : Bool) (st : Status) : (st.succeeded p).plaus = p := rfl
@[simp] theorem succeeded_ovf (p : Bool) (st : Status) : (st.succeeded p).ovf = st.ovf := rfl
@[simp] theorem failed_ok (e : ErrCode) (st : Status) : (st.failed e).ok = false := rfl
@[simp] theorem failed_err (e : ErrCode) (st : Status) : (st.failed e).err = e := rfl
@[simp] theorem failed_plaus (e : ErrCode) (st : Status) : (st.failed e).plaus = false := rfl
@[simp] theorem failed_ovf (e : ErrCode) (st : Status) : (st.failed e).ovf = st.ovf := rfl
@[simp] theorem overflowed_ok (st : Status) : st.overflowed.ok = st.ok := rfl
@[simp] theorem overflowed_err (st : Status) : st.overflowed.err = st.err := rfl
@[simp] theorem overflowed_plaus (st : Status) : st.overflowed.plaus = st.plaus := rfl
@[simp] theorem overflowed_ovf (st : Status) : st.overflowed.ovf = true := rfl
@[simp] theorem ovfCleared_ok (st : Status) : st.ovfCleared.ok = st.ok := rfl
@[simp] theorem ovfCleared_err (st : Status) : st.ovfCleared.err = st.err := rfl
@[simp] theorem ovfCleared_plaus (st : Status) : st.ovfCleared.plaus = st.plaus := rfl
@[simp] theorem ovfCleared_ovf (st : Status) : st.ovfCleared.ovf = false := rfl

end Sys2Proof.Laws
end

