-- ==== Sys2Proof/Laws/Memory.lean ====
section
/-! SUPPORT. The laws of a byte array: read after write, every other index untouched, the canonical
form kept, no cell beyond the indices written. -/

namespace Sys2Proof.Laws

open Sys2Proof.Machine

/-- Read after write, at the written index and at every other one. -/
theorem lookup_write (m : Memory) (i k : Nat) (v : Byte) :
    Memory.lookup (Memory.write m i v) k = if k = i then some v else Memory.lookup m k := by
  induction m with
  | nil => simp [Memory.write, Memory.lookup, eq_comm]
  | cons c m ih =>
    obtain ⟨a, b⟩ := c
    by_cases h1 : i < a
    · rw [Memory.write, if_pos h1, Memory.lookup]
      simp only [eq_comm]
    · by_cases h2 : i = a
      · subst h2
        rw [Memory.write, if_neg h1, if_pos rfl]
        by_cases hk : k = i
        · simp [Memory.lookup, hk]
        · simp [Memory.lookup, hk, Ne.symm hk]
      · rw [Memory.write, if_neg h1, if_neg h2, Memory.lookup, ih, Memory.lookup]
        by_cases hk : k = i
        · subst hk
          simp [Ne.symm h2]
        · simp [hk]

/-- Read after a run of writes. -/
theorem lookup_writeList (m : Memory) (i k : Nat) (bs : List Byte) :
    Memory.lookup (Memory.writeList m i bs) k =
      if i ≤ k ∧ k < i + bs.length then bs[k - i]? else Memory.lookup m k := by
  induction bs generalizing m i with
  | nil =>
    rw [Memory.writeList, if_neg]
    simp
  | cons b bs ih =>
    rw [Memory.writeList, ih, lookup_write]
    by_cases hk : k = i
    · subst hk
      rw [if_neg (by omega), if_pos rfl, if_pos (by simp)]
      simp
    · rw [if_neg hk]
      by_cases h : i + 1 ≤ k ∧ k < i + 1 + bs.length
      · rw [if_pos h, if_pos (by simp only [List.length_cons]; omega)]
        obtain ⟨d, rfl⟩ : ∃ d, k = i + 1 + d := ⟨k - (i + 1), by omega⟩
        rw [show i + 1 + d - (i + 1) = d by omega, show i + 1 + d - i = d + 1 by omega]
        rfl
      · rw [if_neg h, if_neg (by simp only [List.length_cons]; omega)]

/-- Read after the writes of a conversion. -/
theorem lookup_writeAt (m : Memory) (ks : List Nat) (r : List Byte) (k : Nat) :
    Memory.lookup (Memory.writeAt m ks r) k =
      if k ∈ ks then some (byteAt r k) else Memory.lookup m k := by
  induction ks generalizing m with
  | nil => simp [Memory.writeAt]
  | cons a ks ih =>
    rw [Memory.writeAt, ih, lookup_write]
    by_cases h : k ∈ ks <;> by_cases ha : k = a <;> simp [h, ha]

/-- The indices of a write are the old ones and the one written. -/
theorem mem_write (m : Memory) (i : Nat) (v : Byte) (c : Host.Cell)
    (h : c ∈ Memory.write m i v) : c = (i, v) ∨ c ∈ m := by
  induction m with
  | nil => simpa [Memory.write] using h
  | cons a m ih =>
    obtain ⟨a, b⟩ := a
    rw [Memory.write] at h
    split at h
    · simpa using h
    · split at h
      · rcases List.mem_cons.1 h with h | h
        · exact .inl h
        · exact .inr (List.mem_cons_of_mem _ h)
      · rcases List.mem_cons.1 h with h | h
        · exact .inr (h ▸ List.mem_cons_self)
        · rcases ih h with h | h
          · exact .inl h
          · exact .inr (List.mem_cons_of_mem _ h)

/-- A write keeps the canonical form. -/
theorem wf_write (m : Memory) (i : Nat) (v : Byte) (h : Memory.wf m) :
    Memory.wf (Memory.write m i v) := by
  induction m with
  | nil => simp [Memory.wf, Memory.write]
  | cons c m ih =>
    obtain ⟨a, b⟩ := c
    have hc : (∀ x ∈ m.map Prod.fst, a < x) ∧ Memory.wf m := List.pairwise_cons.1 h
    rw [Memory.write]
    split
    · next hi =>
      refine List.pairwise_cons.2 ⟨fun x hx => ?_, h⟩
      rcases List.mem_cons.1 hx with rfl | hx
      · exact hi
      · exact hi.trans (hc.1 x hx)
    · split
      · next hi => subst hi; exact List.pairwise_cons.2 hc
      · next h1 h2 =>
        refine List.pairwise_cons.2 ⟨fun x hx => ?_, ih hc.2⟩
        obtain ⟨c, hcm, rfl⟩ := List.mem_map.1 hx
        rcases mem_write m i v c hcm with rfl | hm
        · exact lt_of_le_of_ne (not_lt.1 h1) (Ne.symm h2)
        · exact hc.1 _ (List.mem_map_of_mem hm)

/-- A run of writes keeps the canonical form. -/
theorem wf_writeList (m : Memory) (i : Nat) (bs : List Byte) (h : Memory.wf m) :
    Memory.wf (Memory.writeList m i bs) := by
  induction bs generalizing m i with
  | nil => exact h
  | cons b bs ih => exact ih _ _ (wf_write m i b h)

/-- The writes of a conversion keep the canonical form. -/
theorem wf_writeAt (m : Memory) (ks : List Nat) (r : List Byte) (h : Memory.wf m) :
    Memory.wf (Memory.writeAt m ks r) := by
  induction ks generalizing m with
  | nil => exact h
  | cons k ks ih => exact ih _ (wf_write m k _ h)

/-- The cells of an array all lie below a bound. -/
def Below (m : Memory) (n : Nat) : Prop := ∀ c ∈ m, c.1 < n

theorem below_write (m : Memory) (i n : Nat) (v : Byte) (h : Below m n) (hi : i < n) :
    Below (Memory.write m i v) n := fun c hc => by
  rcases mem_write m i v c hc with rfl | hm
  · exact hi
  · exact h c hm

theorem below_writeList (m : Memory) (i n : Nat) (bs : List Byte) (h : Below m n)
    (hi : i + bs.length ≤ n) : Below (Memory.writeList m i bs) n := by
  induction bs generalizing m i with
  | nil => exact h
  | cons b bs ih =>
    rw [List.length_cons] at hi
    exact ih _ _ (below_write m i n b h (by omega)) (by omega)

theorem below_writeAt (m : Memory) (ks : List Nat) (n : Nat) (r : List Byte) (h : Below m n)
    (hi : ∀ k ∈ ks, k < n) : Below (Memory.writeAt m ks r) n := by
  induction ks generalizing m with
  | nil => exact h
  | cons k ks ih =>
    exact ih _ (below_write m k n _ h (hi k List.mem_cons_self)) fun x hx =>
      hi x (List.mem_cons_of_mem _ hx)

end Sys2Proof.Laws
end

