-- ==== Sys2Proof/Laws/Ops.lean ====
section
/-! SUPPORT. What the shared operations do, said once: slices, the append access and its repetition,
and the accesses that write an array. -/

namespace Sys2Proof.Laws

open Sys2Proof.Machine

variable (s : State)

/-! ### Slices -/

@[simp] theorem length_slice (sp : Space) (i n : Nat) : (s.slice sp i n).length = n := by
  simp [State.slice]

theorem getElem?_slice (sp : Space) (i n k : Nat) :
    (s.slice sp i n)[k]? = if k < n then some (s.readByte sp (i + k)) else none := by
  by_cases h : k < n <;> simp [State.slice, h]

theorem byteAt_slice (sp : Space) (i n k : Nat) (h : k < n) :
    byteAt (s.slice sp i n) k = s.readByte sp (i + k) := by
  rw [byteAt, List.getD_eq_getElem?_getD, getElem?_slice, if_pos h]
  rfl

theorem drop_slice (sp : Space) (i n k : Nat) :
    (s.slice sp i n).drop k = s.slice sp (i + k) (n - k) := by
  apply List.ext_getElem?
  intro j
  rw [List.getElem?_drop, getElem?_slice, getElem?_slice, Nat.add_assoc]
  by_cases h : k + j < n
  · rw [if_pos h, if_pos (by omega)]
  · rw [if_neg h, if_neg (by omega)]

theorem take_slice (sp : Space) (i n k : Nat) :
    (s.slice sp i n).take k = s.slice sp i (min k n) := by
  apply List.ext_getElem?
  intro j
  rw [List.getElem?_take, getElem?_slice, getElem?_slice]
  by_cases h : j < k <;> by_cases h' : j < n <;> simp [h, h']

/-- A slice depends on the bytes it covers and on nothing else. -/
theorem slice_congr (t : State) (sp sp' : Space) (i i' n : Nat)
    (h : ∀ k < n, s.readByte sp (i + k) = t.readByte sp' (i' + k)) :
    s.slice sp i n = t.slice sp' i' n := by
  apply List.ext_getElem?
  intro k
  rw [getElem?_slice, getElem?_slice]
  by_cases hk : k < n <;> simp [hk, h]

/-- A longer slice is a shorter one and the rest. -/
theorem slice_append (sp : Space) (i n k : Nat) :
    s.slice sp i (n + k) = s.slice sp i n ++ s.slice sp (i + n) k := by
  simp [State.slice, List.range_add, Nat.add_assoc]

theorem rxFromOff_eq : s.rxFromOff = s.rxBytes.drop s.off := by
  rw [State.rxFromOff, State.rxBytes, drop_slice, Nat.zero_add]

/-! ### The append access -/

/-- The append access where there is room. -/
theorem pushByte_room (v : Byte) (h : s.rxlen < s.bufCap) :
    s.pushByte v =
      { s with rxbuf := Memory.write s.rxbuf s.rxlen v, rxlen := s.rxlen + 1 } := if_pos h

/-- The append access where there is none. -/
theorem pushByte_full (v : Byte) (h : s.bufCap ≤ s.rxlen) :
    s.pushByte v = { s with status := s.status.overflowed } := if_neg (by omega)

/-- Repeated appends in a full buffer set `OVF` and do nothing else. -/
theorem pushBytes_full (bs : List Byte) (h : s.bufCap ≤ s.rxlen) :
    s.pushBytes bs =
      { s with status := { s.status with ovf := s.status.ovf || !bs.isEmpty } } := by
  induction bs generalizing s with
  | nil => simp [State.pushBytes]
  | cons b bs ih =>
    rw [State.pushBytes, pushByte_full s b h, ih { s with status := s.status.overflowed } h]
    simp [Status.overflowed]

/-- Repeated appends: as many bytes as there is room for are stored in order, `OVF` tells whether one
was dropped, and nothing else changes. -/
theorem pushBytes_eq (bs : List Byte) :
    s.pushBytes bs = { s with
      rxlen := s.rxlen + min bs.length (s.bufCap - s.rxlen)
      rxbuf := Memory.writeList s.rxbuf s.rxlen (bs.take (s.bufCap - s.rxlen))
      status := { s.status with
        ovf := s.status.ovf || decide (s.bufCap - s.rxlen < bs.length) } } := by
  induction bs generalizing s with
  | nil => simp [State.pushBytes, Memory.writeList]
  | cons b bs ih =>
    by_cases h : s.rxlen < s.bufCap
    · obtain ⟨d, hd⟩ : ∃ d, s.bufCap - s.rxlen = d + 1 := ⟨s.bufCap - s.rxlen - 1, by omega⟩
      have hd' : s.bufCap - (s.rxlen + 1) = d := by omega
      rw [State.pushBytes, pushByte_room s b h, ih]
      simp only [hd, hd', List.length_cons, List.take_succ_cons, Memory.writeList,
        Nat.add_lt_add_iff_right]
      congr 1
      omega
    · have h0 : s.bufCap - s.rxlen = 0 := by omega
      rw [pushBytes_full s _ (by omega)]
      simp [h0, Memory.writeList]

@[simp] theorem length_take_room (bs : List Byte) :
    (bs.take (s.bufCap - s.rxlen)).length = min bs.length (s.bufCap - s.rxlen) := by
  simp [Nat.min_comm]

/-- Reading `RXBUF` after repeated appends. -/
theorem pushBytes_readByte (bs : List Byte) (a : Nat) :
    (s.pushBytes bs).readByte .rxbuf a =
      if s.rxlen ≤ a ∧ a < s.rxlen + min bs.length (s.bufCap - s.rxlen) then
        byteAt bs (a - s.rxlen)
      else s.readByte .rxbuf a := by
  rw [pushBytes_eq]
  simp only [State.readByte, State.array, lookup_writeList, length_take_room]
  split
  · next h =>
    have h1 : a - s.rxlen < s.bufCap - s.rxlen := by omega
    have h2 : a - s.rxlen < bs.length := by omega
    simp [h1, h2, byteAt]
  · rfl

/-- Bytes already counted are not touched by appends (R65, R74). -/
theorem pushBytes_slice_of_le (bs : List Byte) (i n : Nat) (h : i + n ≤ s.rxlen) :
    (s.pushBytes bs).slice .rxbuf i n = s.slice .rxbuf i n := by
  apply slice_congr
  intro k hk
  rw [pushBytes_readByte, if_neg (by omega)]

/-- The counted bytes after appends that all fit: the old ones and the new ones. -/
theorem rxBytes_pushBytes (bs : List Byte) (h : s.rxlen + bs.length ≤ s.bufCap) :
    (s.pushBytes bs).rxBytes = s.rxBytes ++ bs := by
  have hk : min bs.length (s.bufCap - s.rxlen) = bs.length := by omega
  have hlen : (s.pushBytes bs).rxlen = s.rxlen + bs.length := by rw [pushBytes_eq]; simp [hk]
  rw [State.rxBytes, hlen, slice_append, pushBytes_slice_of_le s bs 0 s.rxlen (by omega)]
  rw [State.rxBytes]
  congr 1
  apply List.ext_getElem?
  intro k
  rw [getElem?_slice]
  split
  · next hlt =>
    rw [pushBytes_readByte, if_pos (by omega)]
    simp [byteAt, hlt]
  · next hlt => simp [not_lt.1 hlt]

end Sys2Proof.Laws
end

