-- ==== Sys2Proof/Laws/Wire.lean ====
section
/-! SUPPORT. The pure functions said once: the checksum as a sum in bytes, what a successful `decode`
means index by index, when `decode` succeeds inside a longer sequence, and what the scan loop finds. -/

namespace Sys2Proof.Laws

open Sys2Proof.Machine

/-! ### `byteAt` -/

theorem byteAt_of_getElem? {b : List Byte} {k : Nat} {v : Byte} (h : b[k]? = some v) :
    byteAt b k = v := by
  rw [byteAt, List.getD_eq_getElem?_getD, h]
  rfl

theorem byteAt_append_left (a b : List Byte) (k : Nat) (h : k < a.length) :
    byteAt (a ++ b) k = byteAt a k := by
  rw [byteAt, byteAt, List.getD_eq_getElem?_getD, List.getD_eq_getElem?_getD,
    List.getElem?_append_left h]

theorem byteAt_append_right (a b : List Byte) (k : Nat) (h : a.length ≤ k) :
    byteAt (a ++ b) k = byteAt b (k - a.length) := by
  rw [byteAt, byteAt, List.getD_eq_getElem?_getD, List.getD_eq_getElem?_getD,
    List.getElem?_append_right h]

theorem byteAt_drop (b : List Byte) (i k : Nat) : byteAt (b.drop i) k = byteAt b (i + k) := by
  rw [byteAt, byteAt, List.getD_eq_getElem?_getD, List.getD_eq_getElem?_getD, List.getElem?_drop]

/-! ### The checksum -/

@[simp] theorem checksum_nil : checksum [] = 0#8 := rfl

@[simp] theorem checksum_cons (x : Byte) (b : List Byte) :
    checksum (x :: b) = x + checksum b := by
  apply BitVec.eq_of_toNat_eq
  simp [checksum, BitVec.toNat_add]

/-! ### `decode` -/

/-- What a successful `decode` means, index by index (R134). -/
theorem decodeFrame_ok_iff (b : List Byte) (cmd n : Byte) (p : List Byte) :
    decodeFrame b = .ok cmd n p ↔
      5 ≤ b.length ∧ byteAt b 0 = 0x57#8 ∧ byteAt b 1 = 0xAB#8 ∧ byteAt b 2 = 0x00#8 ∧
      6 + (byteAt b 4).toNat ≤ b.length ∧
      checksum (b.take (5 + (byteAt b 4).toNat)) = byteAt b (5 + (byteAt b 4).toNat) ∧
      cmd = byteAt b 3 ∧ n = byteAt b 4 ∧ p = (b.drop 5).take (byteAt b 4).toNat := by
  unfold decodeFrame Config.hdrSize Config.magic0 Config.magic1 Config.addr
  split
  · next h => simp only [reduceCtorEq, false_iff]; omega
  split
  · next h => simp only [reduceCtorEq, false_iff]; tauto
  split
  · next h => simp only [reduceCtorEq, false_iff]; tauto
  split
  · next h => simp only [reduceCtorEq, false_iff]; omega
  split
  · next h => simp only [reduceCtorEq, false_iff]; tauto
  next h1 h2 h3 h4 h5 =>
    simp only [Decoded.ok.injEq]
    rw [not_or, not_not, not_not] at h2
    rw [not_not] at h3 h5
    constructor
    · rintro ⟨rfl, rfl, rfl⟩
      exact ⟨by omega, h2.1, h2.2, h3, by omega, h5, rfl, rfl, rfl⟩
    · rintro ⟨-, -, -, -, -, -, rfl, rfl, rfl⟩
      exact ⟨rfl, rfl, rfl⟩

/-- A `decode` that does not fail succeeds. -/
theorem decodeFrame_cases (b : List Byte) :
    (∃ cmd n p, decodeFrame b = .ok cmd n p) ∨ ∃ r, decodeFrame b = .fail r := by
  cases h : decodeFrame b with
  | ok cmd n p => exact .inl ⟨cmd, n, p, rfl⟩
  | fail r => exact .inr ⟨r, rfl⟩

/-- `declaredLength` is the length byte of a successful `decode`. -/
theorem declaredLength_eq_some (b : List Byte) (n : Byte) :
    declaredLength b = some n ↔ ∃ cmd p, decodeFrame b = .ok cmd n p := by
  unfold declaredLength
  cases h : decodeFrame b with
  | ok cmd m p => simp
  | fail r => simp

/-- `declaredLength` is none exactly when `decode` fails. -/
theorem declaredLength_eq_none (b : List Byte) :
    declaredLength b = none ↔ ∃ r, decodeFrame b = .fail r := by
  unfold declaredLength
  cases h : decodeFrame b with
  | ok cmd m p => simp
  | fail r => simp

/-- The three-byte test never passes over an index at which `decode` succeeds (R151). -/
theorem isCandidate_of_declaredLength (b : List Byte) (n : Byte)
    (h : declaredLength b = some n) : isCandidate b = true := by
  obtain ⟨cmd, p, h⟩ := (declaredLength_eq_some b n).1 h
  obtain ⟨-, h0, h1, h2, -⟩ := (decodeFrame_ok_iff b cmd n p).1 h
  simp [isCandidate, h0, h1, h2, Config.magic0, Config.magic1, Config.addr]

/-- One turn of the scan loop without the three-byte test, which has no effect on the result
(R151). -/
theorem scanFrom_succ (b : List Byte) (tries i : Nat) :
    scanFrom b (tries + 1) i =
      match declaredLength (b.drop i) with
      | some n => some (i, n)
      | none => scanFrom b tries (i + 1) := by
  rw [scanFrom]
  split
  · rfl
  · next h =>
    cases hd : declaredLength (b.drop i) with
    | none => rfl
    | some n => exact absurd (isCandidate_of_declaredLength _ n hd) h

/-- What the scan loop returns: the first index from `i` on at which `decode` succeeds. -/
theorem scanFrom_eq_some (b : List Byte) (tries i j : Nat) (n : Byte) :
    scanFrom b tries i = some (j, n) ↔
      i ≤ j ∧ j < i + tries ∧ declaredLength (b.drop j) = some n ∧
      ∀ k, i ≤ k → k < j → declaredLength (b.drop k) = none := by
  induction tries generalizing i with
  | zero =>
    rw [scanFrom]
    simp only [reduceCtorEq, false_iff]
    omega
  | succ tries ih =>
    rw [scanFrom_succ]
    cases hd : declaredLength (b.drop i) with
    | some m =>
      simp only [Option.some.injEq, Prod.mk.injEq]
      constructor
      · rintro ⟨rfl, rfl⟩
        exact ⟨le_rfl, by omega, hd, by omega⟩
      · rintro ⟨h1, h2, h3, h4⟩
        by_cases hij : i = j
        · subst hij
          exact ⟨rfl, by simpa [hd] using h3⟩
        · have := h4 i le_rfl (by omega)
          simp [hd] at this
    | none =>
      simp only [ih]
      constructor
      · rintro ⟨h1, h2, h3, h4⟩
        refine ⟨by omega, by omega, h3, fun k hk hkj => ?_⟩
        by_cases hik : i = k
        · exact hik ▸ hd
        · exact h4 k (by omega) hkj
      · rintro ⟨h1, h2, h3, h4⟩
        have hij : i ≠ j := by
          rintro rfl
          simp [hd] at h3
        exact ⟨by omega, by omega, h3, fun k hk hkj => h4 k (by omega) hkj⟩

/-- The scan loop returns none exactly when `decode` fails at every index tried. -/
theorem scanFrom_eq_none (b : List Byte) (tries i : Nat) :
    scanFrom b tries i = none ↔
      ∀ k, i ≤ k → k < i + tries → declaredLength (b.drop k) = none := by
  induction tries generalizing i with
  | zero =>
    rw [scanFrom]
    simp only [true_iff]
    omega
  | succ tries ih =>
    rw [scanFrom_succ]
    cases hd : declaredLength (b.drop i) with
    | some m =>
      simp only [reduceCtorEq, false_iff]
      intro h
      have := h i le_rfl (by omega)
      simp [hd] at this
    | none =>
      simp only [ih]
      constructor
      · intro h k hk hki
        by_cases hik : i = k
        · exact hik ▸ hd
        · exact h k (by omega) (by omega)
      · exact fun h k hk hki => h k (by omega) (by omega)

/-- `decode` fails on fewer than six bytes (R135, R152). -/
theorem declaredLength_short (b : List Byte) (h : b.length < 6) : declaredLength b = none := by
  rw [declaredLength_eq_none]
  rcases decodeFrame_cases b with ⟨cmd, n, p, hd⟩ | hr
  · obtain ⟨-, -, -, -, hl, -⟩ := (decodeFrame_ok_iff b cmd n p).1 hd
    omega
  · exact hr

/-- What `find` returns: the smallest index of all at which `decode` succeeds (R151). -/
theorem findFrame_eq_some (b : List Byte) (i : Nat) (n : Byte) :
    findFrame b = some (i, n) ↔
      declaredLength (b.drop i) = some n ∧ ∀ k < i, declaredLength (b.drop k) = none := by
  have hbound : ∀ m, declaredLength (b.drop i) = some m → i + 6 ≤ b.length := by
    intro m hm
    by_contra hlt
    have := declaredLength_short (b.drop i) (by rw [List.length_drop]; omega)
    simp [this] at hm
  unfold findFrame Config.minScan
  split
  · next h =>
    simp only [reduceCtorEq, false_iff, not_and]
    intro hd
    have := hbound n hd
    omega
  · next h =>
    rw [scanFrom_eq_some]
    constructor
    · rintro ⟨-, -, h3, h4⟩
      exact ⟨h3, fun k hk => h4 k (Nat.zero_le k) hk⟩
    · rintro ⟨h3, h4⟩
      have := hbound n h3
      exact ⟨Nat.zero_le i, by omega, h3, fun k _ hk => h4 k hk⟩

/-- `find` returns none exactly when there is no index at which `decode` succeeds (R151). -/
theorem findFrame_eq_none (b : List Byte) :
    findFrame b = none ↔ ∀ k, declaredLength (b.drop k) = none := by
  constructor
  · intro h k
    induction k using Nat.strong_induction_on with
    | _ k ih =>
      cases hd : declaredLength (b.drop k) with
      | none => rfl
      | some n =>
        have := (findFrame_eq_some b k n).2 ⟨hd, ih⟩
        simp [h] at this
  · intro h
    cases hf : findFrame b with
    | none => rfl
    | some x =>
      have := (findFrame_eq_some b x.1 x.2).1 hf
      simp [h x.1] at this

/-! ### `swap` -/

/-- Reading a swapped record (R170). -/
theorem byteAt_swapRecord (r : List Byte) (k : Nat) (h : k < 50) :
    byteAt (swapRecord r) k = byteAt r (swapIndex k) := by
  apply byteAt_of_getElem?
  simp [swapRecord, Config.recSize, h]

/-- The source of a byte lies inside the record. -/
theorem swapIndex_lt (k : Nat) (h : k < 50) : swapIndex k < 50 := by
  revert k
  decide

/-- `swapIndex` undoes itself. -/
theorem swapIndex_swapIndex (k : Nat) (h : k < 50) : swapIndex (swapIndex k) = k := by
  revert k
  decide

/-- Only the ten offsets move. -/
theorem swapIndex_of_not_mem (k : Nat) (h : k ∉ swappedOffsets) : swapIndex k = k := by
  unfold swapIndex
  split <;> simp_all [swappedOffsets]

end Sys2Proof.Laws
end

