-- ==== Sys2Proof/Laws/Coding.lean ====
section
/-! SUPPORT. The command codes and the rows they select: each named code names itself alone, and a row
keeps the command byte and the body it was made from. -/

namespace Sys2Proof.Laws

open Sys2Proof.Machine

/-! ### Named codes -/

@[simp] theorem ofByte_reqCode (r : ReqCode) : ReqCode.ofByte r.code = some r := by
  cases r <;> decide

@[simp] theorem ofByte_rspCode (r : RspCode) : RspCode.ofByte r.code = some r := by
  cases r <;> decide

@[simp] theorem reqCode_ofByte_rspCode (r : RspCode) : ReqCode.ofByte r.code = none := by
  cases r <;> decide

@[simp] theorem rspCode_ofByte_reqCode (r : ReqCode) : RspCode.ofByte r.code = none := by
  cases r <;> decide

theorem code_of_reqCode_ofByte {c : Byte} {r : ReqCode} (h : ReqCode.ofByte c = some r) :
    r.code = c := by
  have := List.find?_some h
  simpa using this

theorem code_of_rspCode_ofByte {c : Byte} {r : RspCode} (h : RspCode.ofByte c = some r) :
    r.code = c := by
  have := List.find?_some h
  simpa using this

/-! ### Rows -/

@[simp] theorem frameParts_ofReq (b : FrameBody) (r : ReqCode) :
    (Instr.ofReq b r).frameParts = some (r.code, b) := by cases r <;> rfl

@[simp] theorem frameParts_ofRsp (b : FrameBody) (r : RspCode) :
    (Instr.ofRsp b r).frameParts = some (r.code, b) := by cases r <;> rfl

/-- The row a command byte selects carries that byte and the body. -/
@[simp] theorem frameParts_frameRow (cmd : Byte) (b : FrameBody) :
    (frameRow cmd b).frameParts = some (cmd, b) := by
  unfold frameRow
  split
  · next r h => rw [frameParts_ofReq, code_of_reqCode_ofByte h]
  · split
    · next r h => rw [frameParts_ofRsp, code_of_rspCode_ofByte h]
    · rfl

@[simp] theorem format_frameRow (cmd : Byte) (b : FrameBody) : (frameRow cmd b).format = .frame := by
  simp [Instr.format]

/-- A row is laid out when its payload is as long as its length byte says. -/
@[simp] theorem laidOut_frameRow (cmd : Byte) (b : FrameBody) :
    (frameRow cmd b).laidOut = b.lengthAgrees := by
  unfold frameRow
  cases h : ReqCode.ofByte cmd with
  | some r => cases r <;> rfl
  | none =>
    cases h' : RspCode.ofByte cmd with
    | some r => cases r <;> rfl
    | none => simp [Instr.laidOut, Instr.frameParts, unnamedCommand, h, h']

/-- An instruction of format `frame` that is laid out is the row of its command byte. -/
theorem frameRow_of_laidOut (i : Instr) (cmd : Byte) (b : FrameBody)
    (h : i.frameParts = some (cmd, b)) (hl : i.laidOut = true) : frameRow cmd b = i := by
  cases i with
  | frame c x =>
    obtain ⟨rfl, rfl⟩ : c = cmd ∧ x = b := by simpa [Instr.frameParts] using h
    simp only [Instr.laidOut, unnamedCommand, Bool.and_eq_true, Option.isNone_iff_eq_none] at hl
    unfold frameRow
    rw [hl.1.1, hl.1.2]
  | clr => simp [Instr.frameParts] at h
  | cksum => simp [Instr.frameParts] at h
  | encode => simp [Instr.frameParts] at h
  | decode => simp [Instr.frameParts] at h
  | find => simp [Instr.frameParts] at h
  | tohost => simp [Instr.frameParts] at h
  | towire => simp [Instr.frameParts] at h
  | reservedOp c => simp [Instr.frameParts] at h
  | _ =>
    obtain ⟨rfl, rfl⟩ := Prod.mk.inj (Option.some.inj h)
    rfl

/-- Every frame row is one call of the shared operation. -/
theorem exec_of_frameParts (i : Instr) (cmd : Byte) (b : FrameBody) (s : State)
    (h : i.frameParts = some (cmd, b)) : exec i s = .next (s.pushBytes (wireBytes cmd b)) := by
  cases i with
  | clr => simp [Instr.frameParts] at h
  | cksum => simp [Instr.frameParts] at h
  | encode => simp [Instr.frameParts] at h
  | decode => simp [Instr.frameParts] at h
  | find => simp [Instr.frameParts] at h
  | tohost => simp [Instr.frameParts] at h
  | towire => simp [Instr.frameParts] at h
  | reservedOp c => simp [Instr.frameParts] at h
  | _ =>
    obtain ⟨rfl, rfl⟩ := Prod.mk.inj (Option.some.inj h)
    rfl

/-! ### The frame decoder -/

@[simp] theorem length_wireBytes (cmd : Byte) (b : FrameBody) :
    (wireBytes cmd b).length = 6 + b.payload.length := by
  simp [wireBytes, frameHeader]
  omega

/-- The frame decoder on the bytes of a frame with a payload of its declared length, whatever
follows. -/
theorem decodeWire_wireBytes (cmd : Byte) (b : FrameBody) (rest : List Byte)
    (h : b.lengthAgrees = true) :
    decodeWire (wireBytes cmd b ++ rest) = .ok (frameRow cmd b, rest) := by
  have hl : b.payload.length = b.len.toNat := by simpa [FrameBody.lengthAgrees] using h
  have hd : (b.payload ++ ([b.sum] ++ rest)).drop b.len.toNat = b.sum :: rest := by
    rw [← hl, List.drop_left]
    rfl
  have ht : (b.payload ++ ([b.sum] ++ rest)).take b.len.toNat = b.payload := by
    rw [← hl, List.take_left]
  simp only [wireBytes, frameHeader, List.append_assoc, List.cons_append, List.nil_append] at *
  simp [decodeWire, hd, ht]

end Sys2Proof.Laws
end

