-- ==== Sys2Proof/Laws/Step.lean ====
section
/-! SUPPORT. Steps said once: what the fetch of each kind of turn is, and how a run of the host's
interface unfolds. -/

namespace Sys2Proof.Laws

open Sys2Proof.Machine

/-- A run of no step. -/
theorem run_zero (s : State) : Host.Core.run Sys2Proof.core 0 s = .next s := rfl

/-- A run whose first step has a next state. -/
theorem run_succ_of_next (k : Nat) (s t : State) (h : step s = .next t) :
    Host.Core.run Sys2Proof.core (k + 1) s = Host.Core.run Sys2Proof.core k t := by
  have h' : Sys2Proof.core.step s = .next t := h
  simp [Host.Core.run, h']

/-- A step whose turn is a write to `OP`. -/
theorem step_op (s : State) (v : Nat) (rest : List Input)
    (h : s.pending = .event (.wrReg 0x00 v) :: rest) :
    step s = exec (decodeOp (BitVec.ofNat 8 v)) { s with pending := rest } := by
  simp [step, fetch, h]

/-- A step whose turn is any other host event. -/
theorem step_access (s : State) (e : HostEvent) (rest : List Input)
    (h : s.pending = .event e :: rest) (hop : ∀ v, e ≠ .wrReg 0x00 v) :
    step s = hostAccess e { s with pending := rest } := by
  unfold step fetch
  rw [h]
  cases e with
  | wrReg n v =>
    cases n with
    | zero => exact absurd rfl (hop v)
    | succ n => rfl
  | rdReg n => rfl
  | memRead sp i => rfl
  | memWrite sp i v => rfl
  | reset => rfl

/-- What the frame decoder reads is the row of a command byte and a body of its declared length, and
the bytes read are that frame's. -/
theorem decodeWire_eq_ok (bytes rest : List Byte) (i : Instr)
    (h : decodeWire bytes = .ok (i, rest)) :
    ∃ cmd b, i = frameRow cmd b ∧ b.lengthAgrees = true ∧ bytes = wireBytes cmd b ++ rest := by
  unfold decodeWire at h
  split at h
  · next m0 m1 a cmd n r =>
    split at h
    · cases h
    split at h
    · cases h
    split at h
    · cases h
    next h1 h2 _ sum after h3 =>
      cases h
      rw [not_or, not_not, not_not] at h1
      rw [not_not] at h2
      have hlen : n.toNat < r.length := by
        by_contra hc
        rw [List.drop_eq_nil_of_le (not_lt.1 hc)] at h3
        cases h3
      refine ⟨cmd, _, rfl, ?_, ?_⟩
      · simp only [FrameBody.lengthAgrees, List.length_take, beq_iff_eq]
        omega
      · simp only [wireBytes, frameHeader, h1.1, h1.2, h2, List.cons_append, List.nil_append,
          List.append_assoc, List.cons.injEq, true_and]
        rw [← h3, List.take_append_drop]
  · cases h

/-- A step whose turn is pushed bytes, frame or no frame: they are appended (R65, R114). -/
theorem step_push (s : State) (bytes : List Byte) (rest : List Input)
    (h : s.pending = .push bytes :: rest) :
    step s = .next ({ s with pending := rest }.pushBytes bytes) := by
  unfold step fetch
  rw [h]
  simp only
  cases hd : decodeInstr .frame bytes with
  | error e => rfl
  | ok x =>
    obtain ⟨i, r⟩ := x
    cases r with
    | cons _ _ => rfl
    | nil =>
      obtain ⟨cmd, b, rfl, -, h2⟩ := decodeWire_eq_ok bytes [] i hd
      simp only
      rw [exec_of_frameParts _ cmd b _ (frameParts_frameRow cmd b), h2, List.append_nil]

end Sys2Proof.Laws
end

