-- ==== Sys2Proof/Laws/Exec.lean ====
section
/-! SUPPORT. What the operations rest on, said once: the bytes of an encoded frame, the result of a
conversion byte by byte, the two ends of `DECODE` and `FIND`, and the cases of a step. -/

namespace Sys2Proof.Laws

open Sys2Proof.Machine

/-! ### `encode` -/

@[simp] theorem length_encPayload (s : State) : s.encPayload.length = s.encLen.toNat := by
  simp [State.encPayload]

@[simp] theorem length_encodeFrame (cmd : Byte) (p : List Byte) :
    (encodeFrame cmd p).length = 6 + p.length := by
  simp [encodeFrame, frameHeader]
  omega

/-- An encoded frame is the wire form of its command byte and a body with the right last byte. -/
theorem encodeFrame_eq_wireBytes (cmd : Byte) (p : List Byte) :
    encodeFrame cmd p = wireBytes cmd ⟨BitVec.ofNat 8 p.length, p,
      checksum (frameHeader cmd (BitVec.ofNat 8 p.length) ++ p)⟩ := rfl

/-- Reading an array after a run of writes to it from index 0. -/
theorem getD_lookup_writeList (m : Memory) (bs : List Byte) (k : Nat) (d : Byte) :
    (Memory.lookup (Memory.writeList m 0 bs) k).getD d =
      if k < bs.length then byteAt bs k else (Memory.lookup m k).getD d := by
  rw [lookup_writeList]
  by_cases h : k < bs.length
  · rw [if_pos ⟨Nat.zero_le k, by omega⟩, if_pos h]
    simp [byteAt, h]
  · rw [if_neg (by omega), if_neg h]

/-! ### Conversion -/

/-- Reading `REC` after a conversion (R170, R173). -/
theorem convertRec_readByte (s : State) (k : Nat) :
    s.convertRec.readByte .cfgRec k = s.readByte .cfgRec (swapIndex k) := by
  simp only [State.convertRec, State.succeed, State.readByte, State.array, lookup_writeAt]
  by_cases h : k ∈ swappedOffsets
  · have hk : k < Config.recSize := by
      revert h
      simp only [swappedOffsets, Config.recSize, List.mem_cons, List.not_mem_nil, or_false]
      omega
    rw [if_pos h, Option.getD_some, byteAt_swapRecord _ _ hk, State.recBytes,
      byteAt_slice _ _ _ _ _ (show _ < Config.recSize from swapIndex_lt k hk), Nat.zero_add]
    rfl
  · rw [if_neg h, swapIndex_of_not_mem k h]

/-! ### `DECODE` and `FIND` -/

theorem plausible_eq (cmd : Byte) :
    plausible cmd = decide (0x81 ≤ cmd.toNat ∧ cmd.toNat ≤ 0xC0) := by
  simp [plausible, BitVec.le_def]

theorem ofFail_ne_none (r : FailReason) : ErrCode.ofFail r ≠ .none := by cases r <;> decide

/-- `DECODE` where the checks pass. -/
theorem execDecode_of_ok (s : State) (cmd n : Byte) (p : List Byte)
    (h : decodeFrame s.rxFromOff = .ok cmd n p) :
    exec .decode s = .next ({ s with
      decCmd := cmd
      decLen := n
      decPay := Memory.writeList s.decPay 0 p }.succeed (plausible cmd)) := by
  simp [exec, execDecode, h]

/-- `DECODE` where a check fails. -/
theorem execDecode_of_fail (s : State) (r : FailReason)
    (h : decodeFrame s.rxFromOff = .fail r) :
    exec .decode s = .next (s.raise (ErrCode.ofFail r)) := by
  simp [exec, execDecode, h]

/-- `FIND` where there is a frame. -/
theorem execFind_of_some (s : State) (i : Nat) (n : Byte)
    (h : findFrame s.rxBytes = some (i, n)) :
    exec .find s = .next ({ s with off := i, flen := n }.succeed false) := by
  simp [exec, execFind, h]

/-- `FIND` where there is none. -/
theorem execFind_of_none (s : State) (h : findFrame s.rxBytes = none) :
    exec .find s = .next (s.raise .notfound) := by
  simp [exec, execFind, h]

/-! ### The cases of a step -/

/-- Everything a step with a next state can be. -/
theorem step_cases (s t : State) (h : step s = .next t) :
    (s.pending = [] ∧ t = s) ∨
    (∃ v rest, s.pending = .event (.wrReg 0x00 v) :: rest ∧
      exec (decodeOp (BitVec.ofNat 8 v)) { s with pending := rest } = .next t) ∨
    (∃ e rest, s.pending = .event e :: rest ∧ (∀ v, e ≠ .wrReg 0x00 v) ∧
      hostAccess e { s with pending := rest } = .next t) ∨
    ∃ bytes rest, s.pending = .push bytes :: rest ∧
      t = { s with pending := rest }.pushBytes bytes := by
  cases hp : s.pending with
  | nil =>
    refine .inl ⟨rfl, ?_⟩
    simp only [step, fetch, hp, Host.Outcome.next.injEq] at h
    exact h.symm
  | cons x rest =>
    cases x with
    | push bytes =>
      rw [step_push s bytes rest hp] at h
      cases h
      exact .inr (.inr (.inr ⟨bytes, rest, rfl, rfl⟩))
    | event e =>
      by_cases hop : ∃ v, e = .wrReg 0x00 v
      · obtain ⟨v, rfl⟩ := hop
        rw [step_op s v rest hp] at h
        exact .inr (.inl ⟨v, rest, rfl, h⟩)
      · rw [step_access s e rest hp fun v hv => hop ⟨v, hv⟩] at h
        exact .inr (.inr (.inl ⟨e, rest, rfl, fun v hv => hop ⟨v, hv⟩, h⟩))

end Sys2Proof.Laws
end

