-- ==== Sys2Proof/Laws/PerInstr.lean ====
section
/-! SUPPORT. The family `EncodingLength`, one lemma per instruction: an operation is the one byte
written to `OP` (R111), a frame with its parts in place is `6 + N` bytes (R90, R91). -/

namespace Sys2Proof.Laws

/-- The length of an instruction's encoding. -/
def EncodingLength.Statement (i : Instr) : Prop :=
  i.laidOut = true →
    (encodeInstr i).length =
      match i.frameParts with
      | none => 1
      | some (_, b) => 6 + b.len.toNat

/-- The length of a frame whose payload is as long as its length byte says. -/
theorem length_wireBytes_of_lengthAgrees (cmd : Byte) (b : FrameBody)
    (h : b.lengthAgrees = true) : (wireBytes cmd b).length = 6 + b.len.toNat := by
  rw [length_wireBytes, eq_of_beq h]

namespace EncodingLength

theorem clr : Statement .clr := fun _ => rfl

theorem cksum : Statement .cksum := fun _ => rfl

theorem encode : Statement .encode := fun _ => rfl

theorem decode : Statement .decode := fun _ => rfl

theorem find : Statement .find := fun _ => rfl

theorem tohost : Statement .tohost := fun _ => rfl

theorem towire : Statement .towire := fun _ => rfl

theorem reservedOp (code : Byte) : Statement (.reservedOp code) := fun _ => rfl

theorem frame (cmd : Byte) (b : FrameBody) : Statement (.frame cmd b) := fun h =>
  length_wireBytes_of_lengthAgrees _ b (Bool.and_elim_right h)

theorem reqGetInfo (b : FrameBody) : Statement (.reqGetInfo b) := length_wireBytes_of_lengthAgrees _ b

theorem reqSendKbGeneral (b : FrameBody) : Statement (.reqSendKbGeneral b) := length_wireBytes_of_lengthAgrees _ b

theorem reqSendKbMedia (b : FrameBody) : Statement (.reqSendKbMedia b) := length_wireBytes_of_lengthAgrees _ b

theorem reqSendMsAbs (b : FrameBody) : Statement (.reqSendMsAbs b) := length_wireBytes_of_lengthAgrees _ b

theorem reqSendMsRel (b : FrameBody) : Statement (.reqSendMsRel b) := length_wireBytes_of_lengthAgrees _ b

theorem reqSendHid (b : FrameBody) : Statement (.reqSendHid b) := length_wireBytes_of_lengthAgrees _ b

theorem reqReadHid (b : FrameBody) : Statement (.reqReadHid b) := length_wireBytes_of_lengthAgrees _ b

theorem reqGetParaCfg (b : FrameBody) : Statement (.reqGetParaCfg b) := length_wireBytes_of_lengthAgrees _ b

theorem reqSetParaCfg (b : FrameBody) : Statement (.reqSetParaCfg b) := length_wireBytes_of_lengthAgrees _ b

theorem reqGetUsbString (b : FrameBody) : Statement (.reqGetUsbString b) := length_wireBytes_of_lengthAgrees _ b

theorem reqSetUsbString (b : FrameBody) : Statement (.reqSetUsbString b) := length_wireBytes_of_lengthAgrees _ b

theorem reqSetDefaultCfg (b : FrameBody) : Statement (.reqSetDefaultCfg b) := length_wireBytes_of_lengthAgrees _ b

theorem reqReset (b : FrameBody) : Statement (.reqReset b) := length_wireBytes_of_lengthAgrees _ b

theorem rspGetInfo (b : FrameBody) : Statement (.rspGetInfo b) := length_wireBytes_of_lengthAgrees _ b

theorem rspSendKbGeneral (b : FrameBody) : Statement (.rspSendKbGeneral b) := length_wireBytes_of_lengthAgrees _ b

theorem rspSendKbMedia (b : FrameBody) : Statement (.rspSendKbMedia b) := length_wireBytes_of_lengthAgrees _ b

theorem rspSendMsAbs (b : FrameBody) : Statement (.rspSendMsAbs b) := length_wireBytes_of_lengthAgrees _ b

theorem rspSendMsRel (b : FrameBody) : Statement (.rspSendMsRel b) := length_wireBytes_of_lengthAgrees _ b

theorem rspSendHid (b : FrameBody) : Statement (.rspSendHid b) := length_wireBytes_of_lengthAgrees _ b

theorem rspReadHid (b : FrameBody) : Statement (.rspReadHid b) := length_wireBytes_of_lengthAgrees _ b

theorem rspGetParaCfg (b : FrameBody) : Statement (.rspGetParaCfg b) := length_wireBytes_of_lengthAgrees _ b

theorem rspSetParaCfg (b : FrameBody) : Statement (.rspSetParaCfg b) := length_wireBytes_of_lengthAgrees _ b

theorem rspGetUsbString (b : FrameBody) : Statement (.rspGetUsbString b) := length_wireBytes_of_lengthAgrees _ b

theorem rspSetUsbString (b : FrameBody) : Statement (.rspSetUsbString b) := length_wireBytes_of_lengthAgrees _ b

theorem rspSetDefaultCfg (b : FrameBody) : Statement (.rspSetDefaultCfg b) := length_wireBytes_of_lengthAgrees _ b

theorem rspReset (b : FrameBody) : Statement (.rspReset b) := length_wireBytes_of_lengthAgrees _ b

theorem rspUnknown (b : FrameBody) : Statement (.rspUnknown b) := length_wireBytes_of_lengthAgrees _ b

theorem rspError (b : FrameBody) : Statement (.rspError b) := length_wireBytes_of_lengthAgrees _ b

end EncodingLength

end Sys2Proof.Laws
end

