-- ==== Sys2Proof/Tests/Slice0.lean ====
section
/-! SUPPORT. The model's own tests: the checks of well-formedness, words written out from the spec's
encodings, vectors of 95_test_vectors.md (the source of each expected value is named), and for every
statement with hypotheses a concrete state and operands that meet them. -/

namespace Sys2Proof.Tests

open Sys2Proof.Machine

/-! ### Small states -/

/-- The reset state of a block with `BUF_CAP = 64`. -/
def base : State := { State.reset with bufCap := 64 }

/-- The state after `RECV bytes` on a block of the given capacity. -/
def received (cap : Nat) (bytes : List Byte) : State :=
  { State.reset with bufCap := cap, status := ⟨true, .none, false, false⟩ }.pushBytes bytes

/-- The state an outcome holds, the reset state for a refusal. -/
def after : Result → State
  | .next t => t
  | .fault _ => State.reset
  | .refused _ => State.reset

/-- The state after one host event. -/
def event (s : State) (e : HostEvent) : State := after (step { s with pending := [.event e] })

/-- The frame of vector V-D2: an info reply. -/
def infoReply : List Byte :=
  [0x57, 0xAB, 0x00, 0x81, 0x08, 0x30, 0x01, 0x03, 0x00, 0x00, 0x00, 0x00, 0x00, 0xBF]

/-- The bytes of vector V-F1: noise with a failed candidate at index 2, then the info reply. -/
def noisyReply : List Byte := [0x00, 0xFF, 0x57, 0xAB, 0x00, 0x57] ++ infoReply

/-! ### Well-formedness: an ill-formed term for each check -/

theorem smoke_reserved_code_too_low : (Instr.reservedOp 0x06#8).wellFormed = false := by decide
theorem smoke_reserved_code : (Instr.reservedOp 0x07#8).wellFormed = true := by decide
theorem smoke_generic_row_of_named_code :
    (Instr.frame 0x81#8 ⟨0x00#8, [], 0x83#8⟩).wellFormed = false := by decide
theorem smoke_generic_row_of_unnamed_code :
    (Instr.frame 0x0D#8 ⟨0x00#8, [], 0x0F#8⟩).wellFormed = true := by decide
theorem smoke_payload_too_short :
    (Instr.rspSetParaCfg ⟨0x02#8, [0xE5#8], 0x72#8⟩).wellFormed = false := by decide
theorem smoke_wrong_sum :
    (Instr.rspSetParaCfg ⟨0x01#8, [0xE5#8], 0x70#8⟩).wellFormed = false := by decide
theorem smoke_wrong_sum_is_laid_out :
    (Instr.rspSetParaCfg ⟨0x01#8, [0xE5#8], 0x70#8⟩).laidOut = true := by decide
theorem smoke_right_sum :
    (Instr.rspSetParaCfg ⟨0x01#8, [0xE5#8], 0x71#8⟩).wellFormed = true := by decide

/-! ### Every constructor's word, written out from R111, R112, R90, R95, R96 -/

theorem test_words_operations :
    [0b00000000, 0b00000001, 0b00000010, 0b00000011, 0b00000100, 0b00000101, 0b00000110].map
      (decodeTableWord 8) =
    [some .clr, some .cksum, some .encode, some .decode, some .find, some .tohost,
      some .towire] := by decide

theorem test_words_reserved :
    [0b00000111, 0b00101010, 0b11111111].map (decodeTableWord 8) =
    [some (.reservedOp 0x07), some (.reservedOp 0x2A), some (.reservedOp 0xFF)] := by decide

/-- The frame `57 AB 00 cc 00 ss` of 95_test_vectors.md section 2.2, `ss = cc + 2`. -/
def shortest (cc ss : Byte) : Except DecodeError (Instr × List Byte) :=
  decodeInstr .frame [0b01010111, 0b10101011, 0b00000000, cc, 0b00000000, ss]

theorem test_words_requests :
    shortest 0x01 0x03 = .ok (.reqGetInfo ⟨0, [], 0x03⟩, []) ∧
    shortest 0x02 0x04 = .ok (.reqSendKbGeneral ⟨0, [], 0x04⟩, []) ∧
    shortest 0x03 0x05 = .ok (.reqSendKbMedia ⟨0, [], 0x05⟩, []) ∧
    shortest 0x04 0x06 = .ok (.reqSendMsAbs ⟨0, [], 0x06⟩, []) ∧
    shortest 0x05 0x07 = .ok (.reqSendMsRel ⟨0, [], 0x07⟩, []) ∧
    shortest 0x06 0x08 = .ok (.reqSendHid ⟨0, [], 0x08⟩, []) ∧
    shortest 0x07 0x09 = .ok (.reqReadHid ⟨0, [], 0x09⟩, []) ∧
    shortest 0x08 0x0A = .ok (.reqGetParaCfg ⟨0, [], 0x0A⟩, []) ∧
    shortest 0x09 0x0B = .ok (.reqSetParaCfg ⟨0, [], 0x0B⟩, []) ∧
    shortest 0x0A 0x0C = .ok (.reqGetUsbString ⟨0, [], 0x0C⟩, []) ∧
    shortest 0x0B 0x0D = .ok (.reqSetUsbString ⟨0, [], 0x0D⟩, []) ∧
    shortest 0x0C 0x0E = .ok (.reqSetDefaultCfg ⟨0, [], 0x0E⟩, []) ∧
    shortest 0x0F 0x11 = .ok (.reqReset ⟨0, [], 0x11⟩, []) :=
  ⟨rfl, rfl, rfl, rfl, rfl, rfl, rfl, rfl, rfl, rfl, rfl, rfl, rfl⟩

theorem test_words_responses :
    shortest 0x81 0x83 = .ok (.rspGetInfo ⟨0, [], 0x83⟩, []) ∧
    shortest 0x82 0x84 = .ok (.rspSendKbGeneral ⟨0, [], 0x84⟩, []) ∧
    shortest 0x83 0x85 = .ok (.rspSendKbMedia ⟨0, [], 0x85⟩, []) ∧
    shortest 0x84 0x86 = .ok (.rspSendMsAbs ⟨0, [], 0x86⟩, []) ∧
    shortest 0x85 0x87 = .ok (.rspSendMsRel ⟨0, [], 0x87⟩, []) ∧
    shortest 0x86 0x88 = .ok (.rspSendHid ⟨0, [], 0x88⟩, []) ∧
    shortest 0x87 0x89 = .ok (.rspReadHid ⟨0, [], 0x89⟩, []) ∧
    shortest 0x88 0x8A = .ok (.rspGetParaCfg ⟨0, [], 0x8A⟩, []) ∧
    shortest 0x89 0x8B = .ok (.rspSetParaCfg ⟨0, [], 0x8B⟩, []) ∧
    shortest 0x8A 0x8C = .ok (.rspGetUsbString ⟨0, [], 0x8C⟩, []) ∧
    shortest 0x8B 0x8D = .ok (.rspSetUsbString ⟨0, [], 0x8D⟩, []) ∧
    shortest 0x8C 0x8E = .ok (.rspSetDefaultCfg ⟨0, [], 0x8E⟩, []) ∧
    shortest 0x8F 0x91 = .ok (.rspReset ⟨0, [], 0x91⟩, []) ∧
    shortest 0x90 0x92 = .ok (.rspUnknown ⟨0, [], 0x92⟩, []) ∧
    shortest 0xC0 0xC2 = .ok (.rspError ⟨0, [], 0xC2⟩, []) ∧
    shortest 0xC1 0xC3 = .ok (.frame 0xC1 ⟨0, [], 0xC3⟩, []) :=
  ⟨rfl, rfl, rfl, rfl, rfl, rfl, rfl, rfl, rfl, rfl, rfl, rfl, rfl, rfl, rfl, rfl⟩

theorem test_word_with_payload_and_tail :
    decodeInstr .frame [0x57, 0xAB, 0x00, 0x89, 0x01, 0xE5, 0x71, 0xEE] =
      .ok (.rspSetParaCfg ⟨1, [0xE5], 0x71⟩, [0xEE]) := by decide

theorem test_table_words_of_frames :
    decodeTableWord 32 0x57AB0001 = some (.reqGetInfo ⟨0, [], 0⟩) ∧
    decodeTableWord 32 0x57AB00C0 = some (.rspError ⟨0, [], 0⟩) ∧
    decodeTableWord 32 0x57AB0000 = some (.frame 0 ⟨0, [], 0⟩) ∧
    decodeTableWord 32 0x56AB0001 = none := by decide

theorem test_frame_rejected_by_name :
    decodeInstr .frame [0x57, 0xAB, 0x00, 0x01] = .error .short ∧
    decodeInstr .frame [0x57, 0xAA, 0x00, 0x01, 0x00, 0x03] = .error .head ∧
    decodeInstr .frame [0x57, 0xAB, 0x01, 0x01, 0x00, 0x03] = .error .addr ∧
    decodeInstr .frame [0x57, 0xAB, 0x00, 0x01, 0x01, 0x03] = .error .trunc := by decide

/-! ### CKSUM: V-C4, V-C8 -/

theorem test_cksum_wraps_to_zero :
    (after (exec .cksum (received 64 [0xFF, 0x01]))).sum = 0x00 := by decide
theorem test_cksum_whole_frame :
    (after (exec .cksum (received 64 infoReply))).sum = 0x7E := by decide

/-! ### ENCODE: V-E2, V-E10 -/

/-- The state with `ENC_CMD`, `ENC_LEN` and `ENC_PAY` loaded. -/
def loaded (cmd : Byte) (p : List Byte) : State :=
  { base with
    encCmd := cmd
    encLen := BitVec.ofNat 8 p.length
    encPay := Memory.writeList [] 0 p }

theorem test_encode_key_event :
    (after (exec .encode (loaded 0x02 [0, 0, 4, 0, 0, 0, 0, 0]))).slice .txbuf 0 14 =
      [0x57, 0xAB, 0x00, 0x02, 0x08, 0, 0, 4, 0, 0, 0, 0, 0, 0x10] := by decide
theorem test_encode_magic_in_payload :
    (after (exec .encode (loaded 0x82 [0x57, 0xAB, 0x00, 0x81, 0x00, 0x83]))).slice .txbuf 0 12 =
      [0x57, 0xAB, 0x00, 0x82, 0x06, 0x57, 0xAB, 0x00, 0x81, 0x00, 0x83, 0x90] := by decide

/-! ### DECODE: V-D19, V-D8 -/

/-- The state with `OFF` written. -/
def atOff (s : State) (i : Nat) : State := { s with off := i }

theorem test_decode_at_offset :
    let t := after (exec .decode (atOff (received 64 noisyReply) 6))
    (t.status.toByte, t.decCmd, t.decLen, t.slice .decPay 0 8) =
      (0x11, 0x81, 8, [0x30, 0x01, 0x03, 0, 0, 0, 0, 0]) := by decide
theorem test_decode_missing_checksum_byte_is_trunc :
    (after (exec .decode (received 64 (infoReply.take 13)))).status.toByte = 0x08 := by decide

/-! ### FIND: V-F1, V-F7 -/

theorem test_find_after_failed_candidate :
    let t := after (exec .find (received 64 noisyReply))
    (t.off, t.flen, t.status.toByte) = (6, 8, 0x01) := by decide
theorem test_find_inner_false_positive :
    let t := after (exec .find (received 64
      [0xAB, 0x00, 0x82, 0x06, 0x57, 0xAB, 0x00, 0x81, 0x00, 0x83, 0x90]))
    (t.off, t.flen) = (4, 0) := by decide

/-! ### TOHOST and TOWIRE: V-S1, V-S2 -/

/-- The state with `REC` loaded. -/
def withRec (r : List Byte) : State := { base with cfgRec := Memory.writeList [] 0 r }

theorem test_tohost_index_pattern :
    (after (exec .tohost (withRec ((List.range 50).map (BitVec.ofNat 8 ·))))).slice .cfgRec 0 20 =
      [0x00, 0x01, 0x02, 0x06, 0x05, 0x04, 0x03, 0x07, 0x08, 0x0A, 0x09, 0x0B, 0x0C, 0x0D, 0x0E,
        0x10, 0x0F, 0x12, 0x11, 0x13] := by decide
theorem test_towire_of_a_host_record :
    (after (exec .towire (withRec [0x80, 0x80, 0x00, 0x80, 0x25, 0x00, 0x00, 0x08, 0x00, 0x03,
        0x00, 0x86, 0x1A, 0x29, 0xE1, 0x01, 0x00, 0x01, 0x00, 0x00]))).slice .cfgRec 0 20 =
      [0x80, 0x80, 0x00, 0x00, 0x00, 0x25, 0x80, 0x08, 0x00, 0x00, 0x03, 0x86, 0x1A, 0x29, 0xE1,
        0x00, 0x01, 0x00, 0x01, 0x00] := by decide

/-! ### CLR, reserved codes, RXPUSH: V-X1, V-X3, V-X4, V-X5, V-X9 -/

theorem test_clr :
    let t := after (exec .clr
      { base with rxlen := 20, off := 6, status := ⟨true, .none, true, true⟩ })
    (t.rxlen, t.off, t.status.toByte) = (0, 0, 0x01) := by decide
theorem test_reserved_keeps_ovf :
    (event { base with status := ⟨true, .none, true, true⟩ } (.wrReg 0x00 0xFF)).status.toByte =
      0x2E := by decide
theorem test_push_into_a_full_buffer :
    let t := event (received 8 (infoReply.take 8)) (.wrReg 0x04 0x30)
    (t.rxlen, t.rxbuf, t.status.toByte) = (8, (received 8 (infoReply.take 8)).rxbuf, 0x21) := by
  decide
theorem test_push_leaves_ok_and_err :
    let t := event { base with rxlen := 3, status := ⟨false, .sum, false, false⟩ }
      (.wrReg 0x04 0x57)
    (t.rxlen, t.readByte .rxbuf 3, t.status.toByte) = (4, 0x57, 0x0A) := by decide
theorem test_write_to_a_read_only_register :
    (event { base with decCmd := 0x81 } (.wrReg 0x09 0x55)).decCmd = 0x81 := by decide
/-- P5: `BUF_CAP = 8`, so `IDX_W = 4`, and a wider value written to `OFF` keeps its low 4 bits. -/
theorem test_off_keeps_its_width : (event (received 8 []) (.wrReg 0x02 0x1B)).off = 0x0B := by
  decide

/-! ### Frame rows: the bytes of V-E1 and of a corrupted acknowledgement (P4) enter RXBUF -/

theorem test_request_frame_arrives :
    let t := after (exec (.reqGetInfo ⟨0, [], 0x03⟩) base)
    (t.rxlen, t.rxBytes) = (6, [0x57, 0xAB, 0x00, 0x01, 0x00, 0x03]) := by decide
theorem test_corrupted_frame_arrives_and_is_rejected :
    let t := after (exec (.rspSetParaCfg ⟨1, [0xE5], 0x70⟩) base)
    (t.rxlen, (after (exec .decode t)).status.toByte) = (7, 0x0A) := by decide
/-- P5, line 2: of a 14-byte frame 8 bytes fit, and `OVF` is set. -/
theorem test_frame_cut_by_overflow :
    let t := after (exec (.rspGetInfo ⟨8, [0x30, 1, 3, 0, 0, 0, 0, 0], 0xBF⟩) (received 8 []))
    (t.rxBytes, t.status.toByte) = ([0x57, 0xAB, 0x00, 0x81, 0x08, 0x30, 0x01, 0x03], 0x21) := by
  decide

/-! ### The notation of R113: P2 lines 4 to 9, P4 line 3 -/

theorem test_finddec :
    let t := after (findDec (received 64 noisyReply))
    (t.off, t.decCmd, t.status.toByte) = (6, 0x81, 0x11) := by decide
theorem test_finddec_without_a_frame :
    (after (findDec (received 64 [0x57, 0xAB, 0x00, 0x89, 0x01, 0xE5, 0x70]))).status.toByte =
      0x0C := by decide
theorem test_pseudo_operations :
    recv [0x57] = [.wrReg 0x00 0x00, .wrReg 0x04 0x57] ∧
      loadPay [0x30, 0x01] =
        [.memWrite .encPay 0 0x30, .memWrite .encPay 1 0x01, .wrReg 0x07 2] ∧
      loadRec [0x80] = [.memWrite .cfgRec 0 0x80] := by decide

/-! ### Records: R100 to R103 -/

theorem test_info_record :
    InfoRecord.ofBytes [0x30, 0x01, 0x03, 0, 0, 0, 0, 0] =
      some ⟨0x30, 0x01, 0x03, [0, 0, 0, 0, 0]⟩ := by decide
theorem test_ack_status :
    DeviceStatus.ofByte 0xE5 = some .errParameter ∧ ackSucceeded [0x00] = true ∧
      ackSucceeded [0xE5] = false := by decide

/-! ### Witnesses: for every statement with hypotheses, a state and operands that meet them -/

theorem witness_OpByteSelectsOperation :
    7 ≤ (0x07#8 : Byte).toNat ∧ 7 ≤ (0xFF#8 : Byte).toNat := by decide

theorem witness_CommandByteSelectsRow :
    (∀ r, ReqCode.code r ≠ 0x0D#8) ∧ ∀ r, RspCode.code r ≠ 0x0D#8 :=
  ⟨fun r => by cases r <;> decide, fun r => by cases r <;> decide⟩

theorem witness_DecodeOfEncodeIsIdentity :
    (Instr.reservedOp 0x07#8).laidOut = true ∧
      (Instr.frame 0xC1#8 ⟨0x00#8, [], 0x00#8⟩).laidOut = true ∧
      (Instr.rspSetParaCfg ⟨0x01#8, [0xE5#8], 0x70#8⟩).laidOut = true := by decide

theorem witness_EncodeOfDecodeIsIdentity :
    decodeInstr .op8 [0x04] = .ok (.find, []) ∧
      decodeInstr .frame (infoReply ++ [0xEE]) =
        .ok (.rspGetInfo ⟨8, [0x30, 1, 3, 0, 0, 0, 0, 0], 0xBF⟩, [0xEE]) := by decide

theorem witness_StepRunsDecodedInstruction :
    { base with pending := [.event (.wrReg 0x00 0x04)] }.pending =
        [.event (.wrReg 0x00 0x04)] ∧
      { base with pending := [.push infoReply] }.pending = [.push infoReply] ∧
      decodeInstr .frame infoReply =
        .ok (.rspGetInfo ⟨8, [0x30, 1, 3, 0, 0, 0, 0, 0], 0xBF⟩, []) := by decide

theorem witness_FetchWordIsRunByTheNextStep :
    decodeTableWord 8 0x03 = some .decode ∧
      decodeTableWord 32 0x57AB0090 = some (.rspUnknown ⟨0, [], 0⟩) := by decide

theorem witness_NothingChangesWithoutTheHost : State.reset.pending = [] := rfl

theorem witness_PushBurstIsThatManyAppends :
    { base with pending := [.push [0x57, 0xAB]] }.pending = .push [0x57, 0xAB] :: [] := rfl

/-- Both clauses, at their common boundary: one byte of room, and none. -/
theorem witness_AppendAccess :
    (received 8 (infoReply.take 7)).rxlen < (received 8 (infoReply.take 7)).bufCap ∧
      (received 8 (infoReply.take 8)).bufCap ≤ (received 8 (infoReply.take 8)).rxlen ∧
      { base with pending := [.event (.wrReg 0x04 0x1FF)] }.pending =
        .event (.wrReg 0x04 0x1FF) :: [] := by decide

theorem witness_FrameRowsEnterTheReceiveBuffer :
    (Instr.rspError ⟨0x00#8, [], 0x00#8⟩).frameParts = some (0xC0#8, ⟨0x00#8, [], 0x00#8⟩) ∧
      (Instr.frame 0x0D#8 ⟨0x05#8, [], 0x00#8⟩).frameParts =
        some (0x0D#8, ⟨0x05#8, [], 0x00#8⟩) := by decide

/-- Both clauses, in a buffer the frame just fits: the right last byte, and a wrong one. -/
theorem witness_FrameRowThenDecodeDeliversItsCommand :
    (Instr.rspSetParaCfg ⟨0x01#8, [0xE5#8], 0x71#8⟩).frameParts =
        some (0x89#8, ⟨0x01#8, [0xE5#8], 0x71#8⟩) ∧
      [0xE5#8].length = (0x01#8 : Byte).toNat ∧ 6 + (0x01#8 : Byte).toNat ≤ (received 7 []).bufCap ∧
      0x71#8 = BitVec.ofNat 8 (0x57 + 0xAB + 0x89 + 1 + ([0xE5#8].map BitVec.toNat).sum) ∧
      0x70#8 ≠ BitVec.ofNat 8 (0x57 + 0xAB + 0x89 + 1 + ([0xE5#8].map BitVec.toNat).sum) := by
  decide

theorem witness_ReservedCodesReportIllop :
    { base with pending := [.event (.wrReg 0x00 0x07)] }.pending =
        .event (.wrReg 0x00 0x07) :: [] ∧ 0x07 ≤ 0x07 ∧ 0x07 ≤ 0xFF ∧
      { base with pending := [.event (.wrReg 0x00 0xFF)] }.pending =
        .event (.wrReg 0x00 0xFF) :: [] ∧ 0x07 ≤ 0xFF ∧ 0xFF ≤ 0xFF := by decide

theorem witness_ChecksumLaws :
    ([0x01#8, 0x02#8] : List Byte).Perm [0x02#8, 0x01#8] ∧ (0x00#8 : Byte) ≠ 0xFF#8 := by decide

theorem witness_ChecksumOfAWholeFrame :
    ([] : List Byte).length ≤ 255 ∧ (List.replicate 255 (0xFF#8 : Byte)).length ≤ 255 :=
  ⟨by decide, Nat.le_of_eq List.length_replicate⟩

theorem witness_EncodedFrameIsTheRowOfItsCommand : ∃ t, exec .encode base = .next t := ⟨_, rfl⟩

/-- Both clauses: a frame at `OFF`, and none. -/
theorem witness_DecodeOperation :
    decodeFrame (atOff (received 64 noisyReply) 6).rxFromOff =
        .ok 0x81 8 [0x30, 0x01, 0x03, 0, 0, 0, 0, 0] ∧
      decodeFrame (atOff (received 64 noisyReply) 2).rxFromOff = .fail .trunc ∧
      decodeFrame (atOff (received 64 noisyReply) 20).rxFromOff = .fail .short := by decide

theorem witness_DecodeIgnoresBytesAfterTheFrame :
    decodeFrame [0x57, 0xAB, 0x00, 0x01, 0x00, 0x03] = .ok 0x01 0 [] := by decide

theorem witness_EncodeThenDecodeRoundTrip :
    (List.replicate 255 (0xFF#8 : Byte)).length ≤ 255 ∧
      6 + (received 6 []).encLen.toNat ≤ (received 6 []).bufCap := by
  exact ⟨Nat.le_of_eq List.length_replicate, by decide⟩

/-- The first clause at the first, an inner and the last byte, the second at `N = 0`. -/
theorem witness_SingleByteCorruptionIsDetected :
    [0xE5#8].length ≤ 255 ∧
      0 < 6 + [0xE5#8].length ∧ 0 ≠ 4 ∧ 0x56#8 ≠ byteAt (encodeFrame 0x89#8 [0xE5#8]) 0 ∧
      5 < 6 + [0xE5#8].length ∧ 5 ≠ 4 ∧ 0xE6#8 ≠ byteAt (encodeFrame 0x89#8 [0xE5#8]) 5 ∧
      6 < 6 + [0xE5#8].length ∧ 6 ≠ 4 ∧ 0x70#8 ≠ byteAt (encodeFrame 0x89#8 [0xE5#8]) 6 ∧
      ([] : List Byte).length < (0x01#8 : Byte).toNat := by decide

theorem witness_EncodeIsInjective :
    [0xE5#8].length ≤ 255 ∧ encodeFrame 0x89#8 [0xE5#8] = encodeFrame 0x89#8 [0xE5#8] := by decide

/-- Both clauses: a frame behind failing indices, and no frame at all. -/
theorem witness_FindOperation :
    ((∃ cmd n p, decodeFrame ((received 64 noisyReply).rxBytes.drop 6) = .ok cmd n p) ∧
      ∀ j < 6, ∃ r, decodeFrame ((received 64 noisyReply).rxBytes.drop j) = .fail r) ∧
    ∀ i, ∃ r, decodeFrame ((received 64 (infoReply.take 13)).rxBytes.drop i) = .fail r := by
  refine ⟨⟨⟨0x81, 8, [0x30, 0x01, 0x03, 0, 0, 0, 0, 0], by decide⟩, fun j hj => ?_⟩, fun i => ?_⟩
  · have h : ∀ j < 6, declaredLength ((received 64 noisyReply).rxBytes.drop j) = none := by decide
    exact (Laws.declaredLength_eq_none _).1 (h j hj)
  · have h : findFrame (received 64 (infoReply.take 13)).rxBytes = none := by decide
    exact (Laws.declaredLength_eq_none _).1 ((Laws.findFrame_eq_none _).1 h i)

theorem witness_FindLocatesAWholeFrame :
    ∃ t, exec .find (received 64 noisyReply) = .next t ∧ t.status.ok = true :=
  ⟨_, Laws.execFind_of_some _ 6 8 (by decide), rfl⟩

theorem witness_FindSkipsLeadingGarbage :
    [0xE5#8].length ≤ 255 ∧
      ∀ i < [0x11#8].length, ∃ r,
        decodeFrame (([0x11#8] ++ encodeFrame 0x89#8 [0xE5#8] ++ [0x00#8]).drop i) = .fail r := by
  refine ⟨by decide, fun i hi => ?_⟩
  have h : ∀ i < 1, declaredLength
      (([0x11#8] ++ encodeFrame 0x89#8 [0xE5#8] ++ [0x00#8]).drop i) = none := by decide
  exact (Laws.declaredLength_eq_none _).1 (h i hi)

theorem witness_ScanBoundIsUnobservable :
    infoReply.length - 5 ≤ 9 ∧ infoReply.length - 5 ≤ 1000 ∧ ([] : List Byte).length - 5 ≤ 0 := by
  decide

/-- A push and a conversion. -/
def pushThenConvert : List Input := [.event (.wrReg 0x04 0x57), .event (.wrReg 0x00 0x05)]

/-- A push and a conversion stand between. -/
theorem witness_FindThenDecodeSucceeds :
    ∃ t u, exec .find (received 64 infoReply) = .next t ∧ t.status.ok = true ∧
      (∀ x ∈ pushThenConvert, x ≠ .event .reset ∧ (∀ v, x ≠ .event (.wrReg 0x02 v)) ∧
          ∀ v, x = .event (.wrReg 0x00 v) → decodeOp (BitVec.ofNat 8 v) ≠ .clr) ∧
      Host.Core.run Sys2Proof.core pushThenConvert.length { t with pending := pushThenConvert } =
        .next u := by
  refine ⟨_, _, Laws.execFind_of_some _ 0 8 (by decide), rfl, fun x hx => ?_, rfl⟩
  obtain rfl | rfl : x = .event (.wrReg 0x04 0x57) ∨ x = .event (.wrReg 0x00 0x05) := by
    simpa [pushThenConvert] using hx
  · exact ⟨nofun, nofun, nofun⟩
  · refine ⟨nofun, nofun, fun v hv => ?_⟩
    cases hv
    decide

theorem witness_ConversionIsAnInvolution :
    (List.replicate 50 (0x25#8 : Byte)).length = 50 ∧
      (∃ t u, exec .tohost base = .next t ∧ exec .towire t = .next u) ∧
      ∃ t u, exec .towire base = .next t ∧ exec .tohost t = .next u :=
  ⟨by simp, ⟨_, _, rfl, rfl⟩, _, _, rfl, rfl⟩

theorem witness_ConversionKeepsTheNumbers :
    (∃ t, exec .tohost base = .next t) ∧ ∃ t, exec .towire base = .next t :=
  ⟨⟨_, rfl⟩, _, rfl⟩

theorem witness_EveryInstructionCompletes :
    Instr.format .find = .op8 ∧ Instr.format (.rspUnknown ⟨0x00#8, [], 0x92#8⟩) = .frame ∧
      { base with status := ⟨true, .none, false, true⟩ }.status.ovf = true := by decide

theorem witness_FailedOperationsChangeOnlyStatus :
    Instr.format .decode = .op8 ∧
      ∃ t, exec .decode base = .next t ∧ t.status.ok = false :=
  ⟨rfl, _, Laws.execDecode_of_fail base .short (by decide), rfl⟩

/-- One case of each kind: a reason of `DECODE`'s, `NOTFOUND`, `ILLOP`, and no reason. -/
theorem witness_EachReasonHasItsOperation :
    (∃ t, exec .decode base = .next t ∧ t.status.err = .short) ∧
      (∃ t, exec .find base = .next t ∧ t.status.err = .notfound) ∧
      (∃ t, exec (.reservedOp 0x07) base = .next t ∧ t.status.err = .illop) ∧
      ∃ t, exec .clr base = .next t :=
  ⟨⟨_, Laws.execDecode_of_fail base .short (by decide), rfl⟩,
    ⟨_, Laws.execFind_of_none base (by decide), rfl⟩, ⟨_, rfl, rfl⟩, _, rfl⟩

/-- Some of the clauses' own hypotheses too: `STATUS`, `OFF` and an array that change. -/
theorem witness_WritersOfEachPlace :
    (∃ t, step { base with pending := [.event (.wrReg 0x00 0x00)] } = .next t ∧
      t.status ≠ base.status) ∧
    (∃ t, step { base with pending := [.event (.wrReg 0x02 0x3F)] } = .next t ∧
      t.off ≠ base.off) ∧
    (∃ t, step { base with pending := [.event (.memWrite .cfgRec 49 0x01)] } = .next t ∧
      t.cfgRec ≠ base.cfgRec) ∧
    ∃ t, step { base with decCmd := 0x81#8, pending := [.event .reset] } = .next t ∧
      t.decCmd ≠ 0x81#8 :=
  ⟨⟨_, rfl, by decide⟩, ⟨_, rfl, by decide⟩, ⟨_, rfl, by decide⟩, _, rfl, by decide⟩

/-- Two states that differ at the first uncounted index of `RXBUF` and of `ENC_PAY`. -/
theorem witness_UncountedBytesAreNeverRead :
    let s := received 64 [0x57]
    let s' := { s with rxbuf := Memory.write s.rxbuf 1 0xAB, encPay := [(0, 0x01)] }
    s' ≠ s ∧ s' = { s with
      rxbuf := s'.rxbuf, encPay := s'.encPay, txbuf := s'.txbuf, decPay := s'.decPay } ∧
    (∀ k < s.rxlen, s'.readByte .rxbuf k = s.readByte .rxbuf k) ∧
    ∀ k < s.encLen.toNat, s'.readByte .encPay k = s.readByte .encPay k := by
  refine ⟨by decide, rfl, fun k hk => ?_, fun k hk => ?_⟩
  · obtain rfl : k = 0 := by
      have h : (received 64 [0x57]).rxlen = 1 := by decide
      omega
    rfl
  · exact absurd hk (Nat.not_lt_zero k)

theorem witness_IndexWidthIsTheSmallest : Config.minFrame ≤ (received 6 []).bufCap := by decide

/-- Each clause's register number in turn. -/
theorem witness_RegisterReads :
    ∀ n ≤ 0x0B, { base with pending := [.event (.rdReg n)] }.pending =
      .event (.rdReg n) :: [] := fun _ _ => rfl

theorem witness_RegisterWrites :
    ∀ n ∈ [0x01, 0x02, 0x03, 0x05, 0x06, 0x07, 0x08, 0x09, 0x0A, 0x0B],
      { base with pending := [.event (.wrReg n 0x1FF)] }.pending =
        .event (.wrReg n 0x1FF) :: [] := fun _ _ => rfl

/-- The last index of each array. -/
theorem witness_ArrayAccesses :
    63 < base.size .rxbuf ∧ 254 < base.size .encPay ∧ 260 < base.size .txbuf ∧
      254 < base.size .decPay ∧ 49 < base.size .cfgRec ∧
      { base with pending := [.event (.memRead .rxbuf 63)] }.pending =
        .event (.memRead .rxbuf 63) :: [] ∧
      { base with pending := [.event (.memWrite .cfgRec 49 0xFF)] }.pending =
        .event (.memWrite .cfgRec 49 0xFF) :: [] := by decide

/-- The first number and the first indices that name nothing. -/
theorem witness_AccessesThatNameNothingAreRefused :
    0x0B < 0x0C ∧ base.size .rxbuf ≤ 64 ∧ base.size .encPay ≤ 255 ∧ base.size .txbuf ≤ 261 ∧
      base.size .decPay ≤ 255 ∧ base.size .cfgRec ≤ 50 ∧
      { base with pending := [.event (.rdReg 0x0C)] }.pending = .event (.rdReg 0x0C) :: [] ∧
      { base with pending := [.event (.memWrite .cfgRec 50 0)] }.pending =
        .event (.memWrite .cfgRec 50 0) :: [] := by decide

theorem witness_ResetEvent :
    { received 64 infoReply with pending := [.event .reset] }.pending = .event .reset :: [] := rfl

/-- Two different states that meet the hypotheses. -/
theorem witness_NothingSurvivesReset :
    let s := { base with pending := [.event .reset] }
    let s' := { received 64 infoReply with pending := [.event .reset] }
    s' ≠ s ∧ s.pending = .event .reset :: [] ∧ s'.pending = .event .reset :: [] ∧
      s'.bufCap = s.bufCap ∧ s'.draw = s.draw ∧ s'.replies = s.replies := by decide

/-- A state with a received byte and an encoded frame that meets the invariant, and a step from it. -/
theorem witness_StepKeepsTheInvariant :
    { received 6 [0x57#8] with pending := [.event (.wrReg 0x04 0xAB)] }.Inv ∧
      ∃ t, step { received 6 [0x57#8] with pending := [.event (.wrReg 0x04 0xAB)] } = .next t := by
  refine ⟨?_, _, rfl⟩
  exact
    { cap := by decide
      rxlen_le := by decide
      off_lt := by decide
      txlen_legal := .inl rfl
      arrays := fun sp => by cases sp <;> exact ⟨by decide, by decide⟩
      rx_written := by unfold State.written; decide
      tx_written := by unfold State.written; decide
      dec_written := by unfold State.written; decide
      ok_no_err := by decide
      plaus_code := by decide }

theorem witness_ResetMeetsTheInvariant : Config.minFrame ≤ 6 ∧ Config.minFrame ≤ 261 := by decide

theorem witness_ReachableStatesMeetTheInvariant :
    ∃ t, Reachable t ∧ t.rxlen = 1 := by
  refine ⟨_, .step _ _ (.host _ [.event (.wrReg 0x04 0x57)] (.reset 6 (by decide))) rfl, ?_⟩
  decide

end Sys2Proof.Tests
end

/-! # Proofs: the index width -/

namespace Sys2Proof.Proofs

open Sys2Proof.Machine

/-- A width holds `BUF_CAP` exactly when it is no smaller than `IDX_W` (R8). A capacity of 0 is left
out: width 0 holds it, and `IDX_W` would be 1. -/
theorem idxW_le_iff {s : State} (hcap : s.bufCap ≠ 0) {w : Nat} :
    s.idxW ≤ w ↔ s.bufCap < 2 ^ w :=
  Nat.log2_lt hcap

/-- Settles O43: the widths that hold `BUF_CAP` are those from `IDX_W` on, so `IDX_W` is one of them
and the least. -/
theorem indexWidthIsTheSmallest : Obligations.IndexWidthIsTheSmallest := by
  intro s hmin
  have hcap : s.bufCap ≠ 0 := Nat.ne_of_gt (lt_of_lt_of_le (by decide) hmin)
  exact ⟨(idxW_le_iff hcap).mp le_rfl, fun _ => (idxW_le_iff hcap).mpr⟩

end Sys2Proof.Proofs

/-! # Proofs: what an operation and a host access do

The inversion of `exec` and of `hostAccess`, each said once: one constructor per way to end, with the
condition it ends so under. -/

namespace Sys2Proof.Proofs

open Sys2Proof.Machine Sys2Proof.Laws

/-- The ways an operation ends: the state it leaves, and the condition it ends so under. -/
inductive OpEffect (s : State) : Instr → State → Prop
  | clr : OpEffect s .clr
      ({ s with rxlen := 0, off := 0, status := s.status.ovfCleared }.succeed false)
  | cksum : OpEffect s .cksum ({ s with sum := checksum s.rxBytes }.succeed false)
  | encode : OpEffect s .encode ({ s with
      txbuf := Memory.writeList s.txbuf 0 (encodeFrame s.encCmd s.encPayload)
      txlen := BitVec.ofNat 9 (6 + s.encLen.toNat) }.succeed false)
  | decodeOk (cmd n : Byte) (p : List Byte) (hd : decodeFrame s.rxFromOff = .ok cmd n p) :
      OpEffect s .decode ({ s with
        decCmd := cmd
        decLen := n
        decPay := Memory.writeList s.decPay 0 p }.succeed (plausible cmd))
  | decodeFail (r : FailReason) (hd : decodeFrame s.rxFromOff = .fail r) :
      OpEffect s .decode (s.raise (ErrCode.ofFail r))
  | findSome (i : Nat) (n : Byte) (hf : findFrame s.rxBytes = some (i, n)) :
      OpEffect s .find ({ s with off := i, flen := n }.succeed false)
  | findNone (hf : findFrame s.rxBytes = none) : OpEffect s .find (s.raise .notfound)
  | tohost : OpEffect s .tohost s.convertRec
  | towire : OpEffect s .towire s.convertRec
  | reserved (code : Byte) : OpEffect s (.reservedOp code) (s.raise .illop)

/-- What an effect says is what `exec` answers. -/
theorem OpEffect.exec_eq {s t : State} {i : Instr} (h : OpEffect s i t) : exec i s = .next t := by
  cases h with
  | decodeOk cmd n p hd => exact execDecode_of_ok s cmd n p hd
  | decodeFail r hd => exact execDecode_of_fail s r hd
  | findSome i n hf => exact execFind_of_some s i n hf
  | findNone hf => exact execFind_of_none s hf
  | _ => rfl

/-- Every operation ends in one of the listed ways, in every state. -/
theorem exists_opEffect (s : State) {i : Instr} (h : i.format = .op8) : ∃ t, OpEffect s i t := by
  cases i with
  | clr => exact ⟨_, .clr⟩
  | cksum => exact ⟨_, .cksum⟩
  | encode => exact ⟨_, .encode⟩
  | decode =>
    rcases decodeFrame_cases s.rxFromOff with ⟨cmd, n, p, hd⟩ | ⟨r, hd⟩
    · exact ⟨_, .decodeOk cmd n p hd⟩
    · exact ⟨_, .decodeFail r hd⟩
  | find =>
    cases hf : findFrame s.rxBytes with
    | some x => exact ⟨_, .findSome x.1 x.2 hf⟩
    | none => exact ⟨_, .findNone hf⟩
  | tohost => exact ⟨_, .tohost⟩
  | towire => exact ⟨_, .towire⟩
  | reservedOp code => exact ⟨_, .reserved code⟩
  | _ => cases h

/-- The inversion of `exec` on the operations. -/
theorem exec_eq_next_iff {s t : State} {i : Instr} (h : i.format = .op8) :
    exec i s = .next t ↔ OpEffect s i t := by
  refine ⟨fun he => ?_, OpEffect.exec_eq⟩
  obtain ⟨u, hu⟩ := exists_opEffect s h
  obtain rfl : u = t := by simpa [hu.exec_eq] using he
  exact hu

/-- A byte written to `OP` always selects an operation (R111, R112). -/
theorem format_decodeOp (v : Byte) : (decodeOp v).format = .op8 := by
  unfold decodeOp
  split <;> rfl

/-- The registers whose writes the host gives without effect: `OP`, which stores nothing, and the
read-only ones (R23, R24, R64). -/
def inertRegs : List Nat := [0x00, 0x01, 0x03, 0x05, 0x08, 0x09, 0x0A, 0x0B]

/-- The ways a host access with a next state ends. -/
inductive AccessEffect (s : State) : HostEvent → State → Prop
  | rdReg (n v : Nat) (hv : s.readReg n = some v) : AccessEffect s (.rdReg n) (s.reply v)
  | memRead (sp : Space) (i : Nat) (hi : i < s.size sp) :
      AccessEffect s (.memRead sp i) (s.reply (s.readByte sp i).toNat)
  | wrInert (n v : Nat) (hn : n ∈ inertRegs) : AccessEffect s (.wrReg n v) s
  | wrOff (v : Nat) : AccessEffect s (.wrReg 0x02 v) { s with off := v % 2 ^ s.idxW }
  | push (v : Nat) : AccessEffect s (.wrReg 0x04 v) (s.pushByte (BitVec.ofNat 8 v))
  | wrEncCmd (v : Nat) : AccessEffect s (.wrReg 0x06 v) { s with encCmd := BitVec.ofNat 8 v }
  | wrEncLen (v : Nat) : AccessEffect s (.wrReg 0x07 v) { s with encLen := BitVec.ofNat 8 v }
  | store (sp : Space) (i v : Nat) (hi : i < s.size sp) (hw : hostWritable sp = true) :
      AccessEffect s (.memWrite sp i v)
        (s.setArray sp (Memory.write (s.array sp) i (BitVec.ofNat 8 v)))
  | storeIgnored (sp : Space) (i v : Nat) (hi : i < s.size sp) (hw : hostWritable sp = false) :
      AccessEffect s (.memWrite sp i v) s
  | reset : AccessEffect s .reset s.afterReset

/-- A register write that is not refused, case by case (R64). -/
theorem accessEffect_of_writeReg {s t : State} {n v : Nat} (h : s.writeReg n v = some t) :
    AccessEffect s (.wrReg n v) t := by
  unfold State.writeReg at h
  split at h <;> cases h
  case h_3 => exact .wrOff v
  case h_5 => exact .push v
  case h_7 => exact .wrEncCmd v
  case h_8 => exact .wrEncLen v
  all_goals exact .wrInert _ v (by decide)

/-- The inversion of `hostAccess`. -/
theorem accessEffect_of_hostAccess {s t : State} {e : HostEvent} (h : hostAccess e s = .next t) :
    AccessEffect s e t := by
  cases e with
  | rdReg n =>
    cases hv : s.readReg n with
    | none => simp [hostAccess, hv] at h
    | some v =>
      obtain rfl : s.reply v = t := by simpa [hostAccess, hv] using h
      exact .rdReg n v hv
  | wrReg n v =>
    cases hw : s.writeReg n v with
    | none => simp [hostAccess, hw] at h
    | some u =>
      obtain rfl : u = t := by simpa [hostAccess, hw] using h
      exact accessEffect_of_writeReg hw
  | memRead sp i =>
    rw [hostAccess] at h
    split at h
    · next hi => cases h; exact .memRead sp i hi
    · cases h
  | memWrite sp i v =>
    rw [hostAccess] at h
    split at h
    · next hi =>
      split at h
      · next hw => cases h; exact .store sp i v hi hw
      · next hw => cases h; exact .storeIgnored sp i v hi (by simpa using hw)
    · cases h
  | reset => cases h; exact .reset

end Sys2Proof.Proofs

/-! # Proofs: the invariant -/

namespace Sys2Proof.Proofs

open Sys2Proof.Machine Sys2Proof.Laws

/-! ### Arrays -/

/-- An array stays in canonical form within its size when one array is replaced by one that is. -/
theorem arrayOk_setArray {s : State} {sp : Space} {m : Memory} (h : ∀ sp, s.arrayOk sp)
    (hwf : Memory.wf m) (hlt : Below m (s.size sp)) (sp' : Space) :
    (s.setArray sp m).arrayOk sp' := by
  unfold State.arrayOk
  rw [setArray_array, setArray_size]
  split
  · next heq => subst heq; exact ⟨hwf, hlt⟩
  · exact h sp'

/-- A write keeps what has been written. -/
theorem isSome_lookup_write {m : Memory} {i k : Nat} (v : Byte)
    (h : k ≠ i → (Memory.lookup m k).isSome = true) :
    (Memory.lookup (Memory.write m i v) k).isSome = true := by
  rw [lookup_write]
  split
  · rfl
  · next hk => exact h hk

/-- A run of writes from index 0 leaves its whole length written. -/
theorem isSome_lookup_writeList {m : Memory} {bs : List Byte} {k : Nat} (h : k < bs.length) :
    (Memory.lookup (Memory.writeList m 0 bs) k).isSome = true := by
  rw [lookup_writeList, if_pos ⟨Nat.zero_le k, by omega⟩]
  simpa using h

/-! ### Updates that keep the invariant -/

section
variable {s : State} (h : s.Inv)
include h

/-- The host's side and the number of resets are no part of the invariant. -/
theorem inv_hostSide (d : Nat) (p : List Input) (r : List Nat) :
    { s with draw := d, pending := p, replies := r }.Inv := { h with }

/-- An operation that raises a reason keeps the invariant. -/
theorem inv_raise (e : ErrCode) : (s.raise e).Inv :=
  { h with
    ok_no_err := fun hok => by cases hok
    plaus_code := fun hp => by cases hp }

/-- An operation other than `DECODE` ends well with the invariant kept. -/
theorem inv_succeed : (s.succeed false).Inv :=
  { h with
    ok_no_err := fun _ => rfl
    plaus_code := fun hp => by cases hp }

/-- The invariant says nothing of `OVF`. -/
theorem inv_ovf (b : Bool) : { s with status := { s.status with ovf := b } }.Inv := { h with }

/-- The append access keeps the invariant (R26, R65). -/
theorem inv_pushByte (v : Byte) : (s.pushByte v).Inv := by
  by_cases hroom : s.rxlen < s.bufCap
  · rw [pushByte_room s v hroom]
    obtain ⟨hwf, hlt⟩ := h.arrays .rxbuf
    exact { h with
      rxlen_le := hroom
      arrays := arrayOk_setArray (sp := .rxbuf) h.arrays (wf_write _ _ v hwf)
        (below_write _ _ _ v hlt hroom)
      rx_written := fun k hk =>
        isSome_lookup_write v fun hne => h.rx_written k (by simp only at hk; omega) }
  · rw [pushByte_full s v (not_lt.1 hroom)]
    exact inv_ovf h true

end

/-- Repeated appends keep the invariant. -/
theorem inv_pushBytes {s : State} (h : s.Inv) (bs : List Byte) : (s.pushBytes bs).Inv := by
  induction bs generalizing s with
  | nil => exact h
  | cons b bs ih => exact ih (inv_pushByte h b)

/-- The index `FIND` writes to `OFF` lies below `RXLEN` (R152, R153). -/
theorem lt_rxlen_of_findFrame {s : State} {i : Nat} {n : Byte}
    (hf : findFrame s.rxBytes = some (i, n)) : i < s.rxlen := by
  by_contra hle
  have hnil : s.rxBytes.drop i = [] :=
    List.drop_eq_nil_of_le (by simpa [State.rxBytes] using hle)
  have hd := ((findFrame_eq_some _ _ _).1 hf).1
  rw [hnil] at hd
  cases hd

/-- `IDX_W` bits hold `BUF_CAP` (R8). -/
theorem bufCap_lt_two_pow_idxW (s : State) : s.bufCap < 2 ^ s.idxW := Nat.lt_log2_self

/-- The payload of a successful `decode` is as long as its length byte says. -/
theorem length_of_decodeFrame_ok {b p : List Byte} {cmd n : Byte}
    (hd : decodeFrame b = .ok cmd n p) : p.length = n.toNat := by
  obtain ⟨-, -, -, -, hlen, -, -, rfl, rfl⟩ := (decodeFrame_ok_iff b cmd n p).1 hd
  rw [List.length_take, List.length_drop]
  omega

/-- The value `ENCODE` leaves in the 9 bits of `TXLEN` does not wrap (R29, R133). -/
theorem toNat_encodedLength (n : Byte) : (BitVec.ofNat 9 (6 + n.toNat)).toNat = 6 + n.toNat := by
  rw [BitVec.toNat_ofNat, Nat.mod_eq_of_lt (by omega)]

/-! ### The operations -/

section
variable {s : State} (h : s.Inv)
include h

theorem inv_encode : ({ s with
    txbuf := Memory.writeList s.txbuf 0 (encodeFrame s.encCmd s.encPayload)
    txlen := BitVec.ofNat 9 (6 + s.encLen.toNat) }.succeed false).Inv := by
  obtain ⟨hwf, hlt⟩ := h.arrays .txbuf
  have hlen : (encodeFrame s.encCmd s.encPayload).length = 6 + s.encLen.toNat := by simp
  have hbyte : s.encLen.toNat ≤ 255 := by omega
  have htx := toNat_encodedLength s.encLen
  refine inv_succeed { h with
    txlen_legal := .inr ?_
    arrays := arrayOk_setArray (sp := .txbuf) h.arrays (wf_writeList _ _ _ hwf)
      (below_writeList _ _ _ _ hlt ?_)
    tx_written := fun k hk => isSome_lookup_writeList ?_ }
  · simp only [htx, Config.minFrame, Config.maxFrame]
    omega
  · simp only [hlen, State.size, Config.maxFrame]
    omega
  · simpa only [hlen, htx] using hk

theorem inv_decodeOk {cmd n : Byte} {p : List Byte} (hlen : p.length = n.toNat) : ({ s with
    decCmd := cmd
    decLen := n
    decPay := Memory.writeList s.decPay 0 p }.succeed (plausible cmd)).Inv := by
  obtain ⟨hwf, hlt⟩ := h.arrays .decPay
  have hmax : 0 + p.length ≤ s.size .decPay := by
    simp only [hlen, State.size, Config.maxPayload]
    omega
  exact { h with
    arrays := arrayOk_setArray (s := s) (sp := .decPay) h.arrays (wf_writeList _ _ _ hwf)
      (below_writeList _ _ _ _ hlt hmax)
    dec_written := fun k hk => isSome_lookup_writeList (lt_of_lt_of_eq hk hlen.symm)
    ok_no_err := fun _ => rfl
    plaus_code := fun hp => ⟨rfl, hp⟩ }

theorem inv_convertRec : s.convertRec.Inv := by
  obtain ⟨hwf, hlt⟩ := h.arrays .cfgRec
  have hoff : ∀ k ∈ swappedOffsets, k < s.size .cfgRec :=
    show ∀ k ∈ swappedOffsets, k < Config.recSize by decide
  exact inv_succeed { h with
    arrays := arrayOk_setArray (sp := .cfgRec) h.arrays (wf_writeAt _ _ _ hwf)
      (below_writeAt _ _ _ _ hlt hoff) }

/-- Every operation keeps the invariant. -/
theorem inv_opEffect {i : Instr} {t : State} (he : OpEffect s i t) : t.Inv := by
  cases he with
  | clr =>
    exact inv_succeed { h with
      rxlen_le := Nat.zero_le _
      off_lt := Nat.two_pow_pos _
      rx_written := fun k hk => absurd hk (Nat.not_lt_zero k) }
  | cksum => exact inv_succeed { h with }
  | encode => exact inv_encode h
  | decodeOk cmd n p hd => exact inv_decodeOk h (length_of_decodeFrame_ok hd)
  | findSome i n hf =>
    have hi : i < s.bufCap := lt_of_lt_of_le (lt_rxlen_of_findFrame hf) h.rxlen_le
    exact inv_succeed { h with off_lt := hi.trans (bufCap_lt_two_pow_idxW s) }
  | tohost => exact inv_convertRec h
  | towire => exact inv_convertRec h
  | decodeFail | findNone | reserved => exact inv_raise h _

end

/-! ### Reset and the host accesses -/

/-- The state right after reset meets the invariant at every capacity R8 allows. -/
theorem inv_reset {cap : Nat} (hcap : Config.minFrame ≤ cap) :
    { State.reset with bufCap := cap : State }.Inv where
  cap := hcap
  rxlen_le := Nat.zero_le _
  off_lt := Nat.two_pow_pos _
  txlen_legal := .inl rfl
  arrays sp := by cases sp <;> exact ⟨List.Pairwise.nil, fun _ hc => by cases hc⟩
  rx_written k hk := absurd hk (Nat.not_lt_zero k)
  tx_written k hk := absurd hk (Nat.not_lt_zero k)
  dec_written k hk := absurd hk (Nat.not_lt_zero k)
  ok_no_err _ := rfl
  plaus_code hp := by cases hp

/-- A host write to an array it may write keeps the invariant: no counted byte lies there. -/
theorem inv_store {s : State} (h : s.Inv) {sp : Space} {i : Nat} (v : Byte) (hi : i < s.size sp)
    (hw : hostWritable sp = true) : (s.setArray sp (Memory.write (s.array sp) i v)).Inv := by
  obtain ⟨hwf, hlt⟩ := h.arrays sp
  have harr := arrayOk_setArray h.arrays (wf_write _ i v hwf) (below_write _ _ _ v hlt hi)
  cases sp with
  | encPay => exact { h with arrays := harr }
  | cfgRec => exact { h with arrays := harr }
  | rxbuf | txbuf | decPay => cases hw

/-- Every host access keeps the invariant. -/
theorem inv_accessEffect {s t : State} (h : s.Inv) {e : HostEvent} (he : AccessEffect s e t) :
    t.Inv := by
  cases he with
  | rdReg | memRead => exact inv_hostSide h _ _ _
  | wrInert | storeIgnored => exact h
  | wrOff v => exact { h with off_lt := Nat.mod_lt _ (Nat.two_pow_pos _) }
  | push v => exact inv_pushByte h _
  | wrEncCmd | wrEncLen => exact { h with }
  | store sp i v hi hw => exact inv_store h _ hi hw
  | reset => exact inv_hostSide (inv_reset h.cap) _ _ _

/-! ### The obligations -/

/-- Settles O53: a step is nothing, an operation, a host access or repeated appends, and each keeps
the invariant. -/
theorem stepKeepsTheInvariant : Obligations.StepKeepsTheInvariant := by
  intro s t h hstep
  have htaken : ∀ rest, { s with pending := rest }.Inv := fun rest => inv_hostSide h _ rest _
  rcases step_cases s t hstep with
    ⟨-, rfl⟩ | ⟨v, rest, -, he⟩ | ⟨e, rest, -, -, he⟩ | ⟨bytes, rest, -, rfl⟩
  · exact h
  · exact inv_opEffect (htaken rest) ((exec_eq_next_iff (format_decodeOp _)).1 he)
  · exact inv_accessEffect (htaken rest) (accessEffect_of_hostAccess he)
  · exact inv_pushBytes (htaken rest) bytes

/-- Settles O54: the state after reset has the capacity `Config.bufCap`, which is 6 or more. -/
theorem resetMeetsTheInvariant : Obligations.ResetMeetsTheInvariant :=
  ⟨inv_reset (cap := Config.bufCap) (Nat.le_add_left _ _), fun _ => inv_reset⟩

/-- Settles O55, by induction on how the state is come to. -/
theorem reachableStatesMeetTheInvariant : Obligations.ReachableStatesMeetTheInvariant := by
  intro s hs
  induction hs with
  | reset cap hcap => exact inv_reset hcap
  | host s inputs _ ih => exact inv_hostSide ih _ inputs _
  | step s t _ hstep ih => exact stepKeepsTheInvariant s t ih hstep

end Sys2Proof.Proofs

/-! # Proofs: completion, writers, uncounted bytes, reset and `STATUS` -/

namespace Sys2Proof.Proofs

open Sys2Proof.Machine Sys2Proof.Laws

/-! ### Every instruction completes -/

/-- How `OK`, `ERR`, `PLAUS` and `OVF` hang together after an operation (R31, R32). -/
theorem status_of_opEffect {s t : State} {i : Instr} (h : OpEffect s i t) :
    (t.status.ok = true ↔ t.status.err = .none) ∧
    (t.status.plaus = true ↔
      i = .decode ∧ t.status.ok = true ∧ 0x81 ≤ t.decCmd.toNat ∧ t.decCmd.toNat ≤ 0xC0) ∧
    t.status.ovf = (s.status.ovf && decide (i ≠ .clr)) := by
  cases h with
  | decodeOk cmd n p hd => simp [plausible_eq]
  | decodeFail r hd => simp [ofFail_ne_none]
  | tohost | towire => simp [State.convertRec]
  | clr | cksum | encode | findSome | findNone | reserved => simp

/-- A row of format `frame` has a command byte and a body. -/
theorem exists_frameParts {i : Instr} (h : i.format = .frame) :
    ∃ cmd b, i.frameParts = some (cmd, b) := by
  cases hp : i.frameParts with
  | none => simp [Instr.format, hp] at h
  | some x => exact ⟨x.1, x.2, rfl⟩

/-- Settles O38: an operation by its effect, a frame row by repeated appends, which can only set
`OVF`. -/
theorem everyInstructionCompletes : Obligations.EveryInstructionCompletes := by
  intro i s
  cases hf : i.format with
  | op8 =>
    obtain ⟨t, ht⟩ := exists_opEffect s hf
    exact ⟨t, ht.exec_eq, fun _ => status_of_opEffect ht, nofun⟩
  | frame =>
    obtain ⟨cmd, b, hp⟩ := exists_frameParts hf
    refine ⟨_, exec_of_frameParts i cmd b s hp, nofun, fun _ => ?_⟩
    rw [pushBytes_eq]
    exact ⟨rfl, fun hovf => by simp [hovf]⟩

/-! ### Writers -/

/-- Settles O41: the event is an operation or another access, and what each way of ending leaves
unchanged answers every clause but those about the places it writes. -/
theorem writersOfEachPlace : Obligations.WritersOfEachPlace := by
  intro s t e rest hp hstep op wr st
  rcases step_cases s t hstep with
    ⟨hnil, -⟩ | ⟨v, rest', hp', he⟩ | ⟨e', rest', hp', -, he⟩ | ⟨bytes, rest', hp', -⟩
  · cases hp.symm.trans hnil
  · cases hp.symm.trans hp'
    have hwr : wr 0x00 := ⟨v, rfl⟩
    have hop : op (decodeOp (BitVec.ofNat 8 v)) := ⟨v, rfl, rfl⟩
    replace he := (exec_eq_next_iff (format_decodeOp _)).1 he
    generalize decodeOp (BitVec.ofNat 8 v) = i at he hop
    cases he with
    | tohost | towire => simp [State.convertRec, hwr, hop]
    | clr | cksum | encode | decodeOk | decodeFail | findSome | findNone | reserved =>
      simp [hwr, hop]
  · cases hp.symm.trans hp'
    cases accessEffect_of_hostAccess he with
    | rdReg | memRead | wrInert | storeIgnored => simp
    | wrOff v | wrEncCmd v | wrEncLen v => simp [wr]
    | push v =>
      have hwr : wr 0x04 := ⟨v, rfl⟩
      rcases lt_or_ge { s with pending := rest }.rxlen { s with pending := rest }.bufCap with
        hroom | hfull
      · simp [pushByte_room _ _ hroom, hwr]
      · simp [pushByte_full _ _ hfull, hwr, Status.overflowed]
    | store sp k v hi hw =>
      have hst : st sp := ⟨k, v, rfl⟩
      cases sp with
      | encPay | cfgRec => simp [State.setArray, hst]
      | rxbuf | txbuf | decPay => cases hw
    | reset => simp
  · cases hp.symm.trans hp'

/-! ### Uncounted bytes -/

/-- The state with the arrays replaced that the operations read in part or write whole. -/
def withArrays (s : State) (rx enc tx dec : Memory) : State :=
  { s with rxbuf := rx, encPay := enc, txbuf := tx, decPay := dec }

section
variable {s : State} {rx enc tx dec : Memory}

/-- The operand of `CKSUM` and `FIND` takes in counted bytes of `RXBUF` alone. -/
theorem rxBytes_withArrays (hrx : ∀ k < s.rxlen,
      (withArrays s rx enc tx dec).readByte .rxbuf k = s.readByte .rxbuf k) :
    (withArrays s rx enc tx dec).rxBytes = s.rxBytes :=
  slice_congr _ _ _ _ _ _ _ fun k hk => by simpa using hrx k hk

/-- The operand of `ENCODE` takes in counted bytes of `ENC_PAY` alone. -/
theorem encPayload_withArrays (hpay : ∀ k < s.encLen.toNat,
      (withArrays s rx enc tx dec).readByte .encPay k = s.readByte .encPay k) :
    (withArrays s rx enc tx dec).encPayload = s.encPayload :=
  slice_congr _ _ _ _ _ _ _ fun k hk => by simpa using hpay k hk

/-- Reading back a run of writes inside its length sees the bytes written, whatever was there. -/
theorem readByte_writeList_congr {t t' : State} {sp : Space} {m m' : Memory} {bs : List Byte}
    (ht : t.array sp = Memory.writeList m 0 bs) (ht' : t'.array sp = Memory.writeList m' 0 bs)
    {k : Nat} (hk : k < bs.length) : t'.readByte sp k = t.readByte sp k := by
  rw [State.readByte, State.readByte, ht, ht', getD_lookup_writeList, getD_lookup_writeList,
    if_pos hk, if_pos hk]

/-- An operation ends in the same way where its operands agree: the same registers, `STATUS` and
`REC`, the arrays it reads left as they were, the same result bytes. -/
theorem exists_opEffect_withArrays {t : State} {i : Instr} (h : OpEffect s i t)
    (hrx : (withArrays s rx enc tx dec).rxBytes = s.rxBytes)
    (hpay : (withArrays s rx enc tx dec).encPayload = s.encPayload) :
    ∃ t', OpEffect (withArrays s rx enc tx dec) i t' ∧
      t' = withArrays t rx enc t'.txbuf t'.decPay ∧
      (i = .encode → ∀ k < t.txlen.toNat, t'.readByte .txbuf k = t.readByte .txbuf k) ∧
      (i = .decode → t.status.ok = true →
        ∀ k < t.decLen.toNat, t'.readByte .decPay k = t.readByte .decPay k) := by
  have hoff : (withArrays s rx enc tx dec).rxFromOff = s.rxFromOff := by
    rw [rxFromOff_eq, rxFromOff_eq, hrx]
    rfl
  cases h with
  | clr => exact ⟨_, .clr, rfl, nofun, nofun⟩
  | cksum => exact ⟨_, .cksum, by rw [hrx]; rfl, nofun, nofun⟩
  | encode =>
    refine ⟨_, .encode, rfl, fun _ k hk => ?_, nofun⟩
    refine readByte_writeList_congr (sp := .txbuf) (m' := tx) rfl (by rw [← hpay]; rfl) ?_
    rw [length_encodeFrame, length_encPayload]
    exact lt_of_lt_of_eq hk (toNat_encodedLength _)
  | decodeOk cmd n p hd =>
    refine ⟨_, .decodeOk cmd n p (hoff ▸ hd), rfl, nofun, fun _ _ k hk => ?_⟩
    refine readByte_writeList_congr (sp := .decPay) rfl rfl ?_
    exact lt_of_lt_of_eq hk (length_of_decodeFrame_ok hd).symm
  | decodeFail r hd =>
    exact ⟨_, .decodeFail r (hoff ▸ hd), rfl, nofun, fun _ hok => by cases hok⟩
  | findSome i n hf => exact ⟨_, .findSome i n (hrx ▸ hf), rfl, nofun, nofun⟩
  | findNone hf => exact ⟨_, .findNone (hrx ▸ hf), rfl, nofun, nofun⟩
  | tohost => exact ⟨_, .tohost, rfl, nofun, nofun⟩
  | towire => exact ⟨_, .towire, rfl, nofun, nofun⟩
  | reserved code => exact ⟨_, .reserved code, rfl, nofun, nofun⟩

end

/-- Settles O42: the states agree on the operands, which are the counted bytes alone, so every operation
ends alike in both. -/
theorem uncountedBytesAreNeverRead : Obligations.UncountedBytesAreNeverRead := by
  intro i s s' hf hs hrx hpay
  replace hs : s' = withArrays s s'.rxbuf s'.encPay s'.txbuf s'.decPay := hs
  obtain ⟨t, ht⟩ := exists_opEffect s hf
  obtain ⟨t', ht', hsame, henc, hdec⟩ := exists_opEffect_withArrays ht
    (rxBytes_withArrays (hs ▸ hrx)) (encPayload_withArrays (hs ▸ hpay))
  rw [← hs] at ht'
  exact ⟨t, t', ht.exec_eq, ht'.exec_eq, hsame, henc, hdec⟩

/-! ### Steps, reset and `STATUS` -/

/-- Settles O8: the first of the host's turns is fetched as that instruction. -/
theorem stepRunsDecodedInstruction : Obligations.StepRunsDecodedInstruction := by
  refine ⟨step_op, fun s bytes i rest hp hd => ?_⟩
  simp [step, fetch, hp, hd]

/-- Settles O10: the fetch finds the host idle. -/
theorem nothingChangesWithoutTheHost : Obligations.NothingChangesWithoutTheHost := by
  intro s hp
  simp [step, fetch, hp]

/-- Settles O48, register by register and array by array. -/
theorem resetValues : Obligations.ResetValues := by
  refine ⟨fun n hn => ?_, fun sp k => ?_⟩
  · interval_cases n <;> rfl
  · cases sp <;> rfl

/-- A reason's code has 3 bits (R31, R200). -/
theorem code_lt (e : ErrCode) : e.code < 8 := by cases e <;> decide

/-- `STATUS` as a number: its fields at their places, with no carry out of 6 bits (R31). -/
theorem toNat_toByte (st : Status) :
    st.toByte.toNat = st.ok.toNat + 2 * st.err.code + 16 * st.plaus.toNat + 32 * st.ovf.toNat := by
  have hcode := code_lt st.err
  have hok := st.ok.toNat_lt
  have hplaus := st.plaus.toNat_lt
  have hovf := st.ovf.toNat_lt
  rw [Status.toByte, BitVec.toNat_ofNat, Nat.mod_eq_of_lt (by omega)]

/-- The bit of a flag's number is the flag. -/
theorem decide_eq_one_of_eq_toNat {n : Nat} {b : Bool} (h : n = b.toNat) : decide (n = 1) = b := by
  cases b <;> simp [h]

/-- Settles O52: each field is read off the sum it is one term of. -/
theorem statusByteLayout : Obligations.StatusByteLayout := by
  intro st
  have hcode := code_lt st.err
  have hok := st.ok.toNat_lt
  have hplaus := st.plaus.toNat_lt
  have hovf := st.ovf.toNat_lt
  simp only [BitVec.getLsbD, Nat.testBit_eq_decide_div_mod_eq, toNat_toByte]
  exact ⟨decide_eq_one_of_eq_toNat (by omega), by omega, decide_eq_one_of_eq_toNat (by omega),
    decide_eq_one_of_eq_toNat (by omega), decide_eq_false (by omega), decide_eq_false (by omega),
    rfl⟩

end Sys2Proof.Proofs

/-! # Proofs: host accesses

What a way of ending in `AccessEffect` says is what the step answers; what one write to an array
leaves to be read; which accesses are refused. -/

namespace Sys2Proof.Proofs

open Sys2Proof.Machine Sys2Proof.Laws

/-! ### The effect of an access is the step's answer -/

/-- A write to an inert register changes nothing (R23, R24, R64). -/
theorem writeReg_of_mem_inertRegs (s : State) {n : Nat} (v : Nat) (hn : n ∈ inertRegs) :
    s.writeReg n v = some s := by
  fin_cases hn <;> rfl

/-- What an effect says is what `hostAccess` answers. -/
theorem AccessEffect.hostAccess_eq {s t : State} {e : HostEvent} (h : AccessEffect s e t) :
    hostAccess e s = .next t := by
  cases h with
  | rdReg n v hv => rw [hostAccess, hv]
  | memRead sp i hi => exact if_pos hi
  | wrInert n v hn => rw [hostAccess, writeReg_of_mem_inertRegs s v hn]
  | store sp i v hi hw => rw [hostAccess, if_pos hi, if_pos hw]
  | storeIgnored sp i v hi hw => rw [hostAccess, if_pos hi, if_neg (by simp [hw])]
  | wrOff | push | wrEncCmd | wrEncLen | reset => rfl

/-- A write to a register other than `OP` starts no operation (R24). -/
theorem wrReg_ne_opWrite {n v : Nat} (hn : n ≠ 0x00) (w : Nat) :
    HostEvent.wrReg n v ≠ .wrReg 0x00 w := by
  rintro ⟨⟩
  exact hn rfl

/-- A step whose turn is an access other than a write to `OP` ends in the access's effect. -/
theorem step_of_accessEffect {s t : State} {e : HostEvent} {rest : List Input}
    (hp : s.pending = .event e :: rest) (hop : ∀ v, e ≠ .wrReg 0x00 v)
    (he : AccessEffect { s with pending := rest } e t) : step s = .next t :=
  (step_access s e rest hp hop).trans he.hostAccess_eq

/-! ### Reading an array after one write -/

/-- One byte written to an array: it reads as written, every other byte of every array as before. -/
theorem readByte_setArray_write (s : State) (sp sp' : Space) (i k : Nat) (v : Byte) :
    (s.setArray sp (Memory.write (s.array sp) i v)).readByte sp' k =
      if sp' = sp ∧ k = i then v else s.readByte sp' k := by
  rw [State.readByte, setArray_array, setArray_draw]
  by_cases hsp : sp' = sp
  · subst hsp
    rw [if_pos rfl, lookup_write]
    by_cases hk : k = i <;> simp [hk, State.readByte]
  · simp [hsp, State.readByte]

/-- Reading `RXBUF` after an append access with room (R65). -/
theorem pushByte_readByte_room (s : State) (v : Byte) (h : s.rxlen < s.bufCap) (k : Nat) :
    (s.pushByte v).readByte .rxbuf k = if k = s.rxlen then v else s.readByte .rxbuf k := by
  have hread := readByte_setArray_write s .rxbuf .rxbuf s.rxlen k v
  simp only [true_and] at hread
  rw [pushByte_room s v h]
  exact hread

/-! ### What names nothing -/

/-- No register above 0x0B is read (R66). -/
theorem readReg_eq_none (s : State) {n : Nat} (h : 0x0B < n) : s.readReg n = none := by
  obtain ⟨m, rfl⟩ := Nat.exists_eq_add_of_le' h
  rfl

/-- No register above 0x0B is written (R66). -/
theorem writeReg_eq_none (s : State) {n : Nat} (v : Nat) (h : 0x0B < n) :
    s.writeReg n v = none := by
  obtain ⟨m, rfl⟩ := Nat.exists_eq_add_of_le' h
  rfl

/-! ### The obligations -/

/-- Settles O12: the step is one append access, by the law for a buffer with room and the law for a
full one. -/
theorem appendAccess : Obligations.AppendAccess := by
  intro s v rest hp
  have hstep := step_of_accessEffect hp nofun (.push v)
  refine ⟨fun hroom => ⟨_, hstep, ?_, fun k => ?_⟩, fun hfull => ?_⟩
  · rw [pushByte_room { s with pending := rest } _ hroom]
  · exact pushByte_readByte_room { s with pending := rest } _ hroom k
  · rw [hstep, pushByte_full { s with pending := rest } _ hfull]
    rfl

/-- Settles O46: a read replies with the byte; a write in range is a store where the host may write
the array, and is ignored elsewhere. -/
theorem arrayAccesses : Obligations.ArrayAccesses := by
  refine ⟨fun s sp i rest hp hi => step_of_accessEffect hp nofun (.memRead sp i hi),
    fun s sp i v rest hp hi => ?_⟩
  cases hw : hostWritable sp with
  | true =>
    refine ⟨_, step_of_accessEffect hp nofun (.store sp i v hi hw),
      fun hsp => ⟨?_, fun sp' k => ?_⟩, ?_⟩
    · rcases hsp with rfl | rfl <;> rfl
    · exact readByte_setArray_write { s with pending := rest } sp sp' i k _
    · rintro (rfl | rfl | rfl) <;> cases hw
  | false =>
    refine ⟨_, step_of_accessEffect hp nofun (.storeIgnored sp i v hi hw), ?_, fun _ => rfl⟩
    rintro (rfl | rfl) <;> cases hw

/-- Settles O44: the step replies with what `readReg` answers, register by register. -/
theorem registerReads : Obligations.RegisterReads := by
  intro s n rest hp gives
  have hgives (v : Nat) (hv : { s with pending := rest }.readReg n = some v) : gives v :=
    step_of_accessEffect hp nofun (.rdReg n v hv)
  refine ⟨?_, ?_, ?_, ?_, ?_, ?_, ?_, ?_, ?_, ?_, ?_, ?_⟩ <;> rintro rfl <;> exact hgives _ rfl

/-- Settles O45: three registers take the low bits, the listed others are inert. -/
theorem registerWrites : Obligations.RegisterWrites := by
  intro s n v rest hp
  refine ⟨?_, ?_, ?_, fun hn => ?_⟩
  · rintro rfl
    exact step_of_accessEffect hp nofun (.wrOff v)
  · rintro rfl
    exact step_of_accessEffect hp nofun (.wrEncCmd v)
  · rintro rfl
    exact step_of_accessEffect hp nofun (.wrEncLen v)
  · have hop : n ≠ 0x00 := ne_of_mem_of_not_mem hn (by decide)
    exact step_of_accessEffect hp (wrReg_ne_opWrite hop)
      (.wrInert n v (List.mem_cons_of_mem _ hn))

/-- Settles O47: the step is the access, and it finds no register or an index out of range. -/
theorem accessesThatNameNothingAreRefused : Obligations.AccessesThatNameNothingAreRefused := by
  refine fun s rest => ⟨fun n hp hn => ?_, fun n v hp hn => ?_, fun sp i hp hi => ?_,
    fun sp i v hp hi => ?_⟩
  · rw [step_access s _ rest hp nofun, hostAccess, readReg_eq_none _ hn]
  · rw [step_access s _ rest hp (wrReg_ne_opWrite (Nat.ne_zero_of_lt hn)), hostAccess,
      writeReg_eq_none _ v hn]
  · rw [step_access s _ rest hp nofun]
    exact if_neg (not_lt.2 hi)
  · rw [step_access s _ rest hp nofun]
    exact if_neg (not_lt.2 hi)

end Sys2Proof.Proofs

/-! # Proofs: encodings

The byte that selects an operation, the row a command byte selects, and that decoding and encoding
undo each other. -/

namespace Sys2Proof.Proofs

open Sys2Proof.Machine Sys2Proof.Laws

/-! ### Operations and the byte written to `OP` -/

/-- Every byte from 0x07 on selects the reserved row (R112). -/
theorem decodeOp_of_ge {v : Byte} (h : 7 ≤ v.toNat) : decodeOp v = .reservedOp v := by
  unfold decodeOp
  split
  case h_8 => rfl
  all_goals omega

/-- The operation a byte selects has that byte as its code (R111). -/
@[simp] theorem opByte_decodeOp (v : Byte) : opByte (decodeOp v) = v := by
  unfold decodeOp
  split
  case h_8 => rfl
  all_goals exact BitVec.eq_of_toNat_eq (Eq.symm ‹_›)

/-- The operation a byte selects has its parts in place: a reserved code is 0x07 or above (R112). -/
@[simp] theorem laidOut_decodeOp (v : Byte) : (decodeOp v).laidOut = true := by
  unfold decodeOp
  split
  case h_8 h0 h1 h2 h3 h4 h5 h6 =>
    have hge : 7 ≤ v.toNat := by
      simp only [imp_false] at h0 h1 h2 h3 h4 h5 h6
      omega
    simpa [Instr.laidOut, Instr.frameParts] using hge
  all_goals rfl

/-- The code of an operation selects it (R111). -/
theorem decodeOp_opByte {i : Instr} (hf : i.format = .op8) (hl : i.laidOut = true) :
    decodeOp (opByte i) = i := by
  cases i with
  | reservedOp code =>
    have hcode : 7 ≤ code.toNat := by simpa [Instr.laidOut, Instr.frameParts] using hl
    exact decodeOp_of_ge hcode
  | clr | cksum | encode | decode | find | tohost | towire => rfl
  | _ => cases hf

/-! ### Encoding, by format -/

/-- An operation's encoding is the byte written to `OP`. -/
theorem encodeInstr_of_op8 {i : Instr} (hf : i.format = .op8) : encodeInstr i = [opByte i] := by
  unfold Instr.format at hf
  unfold encodeInstr
  cases hp : i.frameParts with
  | none => rfl
  | some x => simp [hp] at hf

/-- A frame row's encoding is its frame. -/
theorem encodeInstr_of_frameParts {i : Instr} {cmd : Byte} {b : FrameBody}
    (hp : i.frameParts = some (cmd, b)) : encodeInstr i = wireBytes cmd b := by
  simp [encodeInstr, hp]

/-- A frame row that is laid out has a payload of its declared length. -/
theorem lengthAgrees_of_laidOut {i : Instr} {cmd : Byte} {b : FrameBody}
    (hp : i.frameParts = some (cmd, b)) (hl : i.laidOut = true) : b.lengthAgrees = true := by
  rw [← frameRow_of_laidOut i cmd b hp hl, laidOut_frameRow] at hl
  exact hl

/-! ### Decoding and encoding undo each other -/

/-- Settles O5: an operation by its code, a frame row by the frame decoder on its own frame. -/
theorem decodeOfEncodeIsIdentity : Obligations.DecodeOfEncodeIsIdentity := by
  intro i rest hl
  cases hf : i.format with
  | op8 =>
    rw [encodeInstr_of_op8 hf]
    exact congrArg (fun j => Except.ok (j, rest)) (decodeOp_opByte hf hl)
  | frame =>
    obtain ⟨cmd, b, hp⟩ := exists_frameParts hf
    rw [encodeInstr_of_frameParts hp, decodeInstr,
      decodeWire_wireBytes cmd b rest (lengthAgrees_of_laidOut hp hl),
      frameRow_of_laidOut i cmd b hp hl]

/-- Settles O6: what is read is an operation's code, or the frame of the row its command byte
selects. -/
theorem encodeOfDecodeIsIdentity : Obligations.EncodeOfDecodeIsIdentity := by
  intro f bytes rest i hd
  cases f with
  | op8 =>
    cases bytes with
    | nil => cases hd
    | cons v bytes =>
      cases hd
      have hf := format_decodeOp v
      refine ⟨laidOut_decodeOp v, hf, ?_⟩
      rw [encodeInstr_of_op8 hf, opByte_decodeOp, List.singleton_append]
  | frame =>
    obtain ⟨cmd, b, rfl, hlen, rfl⟩ := decodeWire_eq_ok bytes rest i hd
    refine ⟨(laidOut_frameRow cmd b).trans hlen, format_frameRow cmd b, ?_⟩
    rw [encodeInstr_of_frameParts (frameParts_frameRow cmd b)]

/-- Settles O1, code by code; from 0x07 on every byte is reserved. -/
theorem opByteSelectsOperation : Obligations.OpByteSelectsOperation :=
  ⟨rfl, rfl, rfl, rfl, rfl, rfl, rfl, fun _ => decodeOp_of_ge⟩

/-- Settles O2, by running the decoder on the words. -/
theorem sampleWordsDecode : Obligations.SampleWordsDecode := by
  unfold Obligations.SampleWordsDecode
  decide

/-! ### Command bytes -/

/-- A byte that is no named request's code names no request (R95). -/
theorem reqCode_ofByte_eq_none {cmd : Byte} (h : ∀ r, ReqCode.code r ≠ cmd) :
    ReqCode.ofByte cmd = none :=
  List.find?_eq_none.2 fun r _ => by simpa using h r

/-- A byte that is no named response's code names no response (R96). -/
theorem rspCode_ofByte_eq_none {cmd : Byte} (h : ∀ r, RspCode.code r ≠ cmd) :
    RspCode.ofByte cmd = none :=
  List.find?_eq_none.2 fun r _ => by simpa using h r

/-- Settles O3: a named code is found in its own list alone, any other byte in neither. -/
theorem commandByteSelectsRow : Obligations.CommandByteSelectsRow := by
  refine ⟨fun r b => ?_, fun r b => ?_, fun cmd b hreq hrsp => ?_⟩
  · simp [frameRow]
  · simp [frameRow]
  · simp [frameRow, reqCode_ofByte_eq_none hreq, rspCode_ofByte_eq_none hrsp]

/-- Settles O4, code by code. -/
theorem requestResponsePairing : Obligations.RequestResponsePairing := by
  refine ⟨fun r => ?_, rfl, rfl, fun r => ?_⟩ <;> cases r <;> decide

/-- Settles O37, by running over the table of fields. -/
theorem configRecordLayout : Obligations.ConfigRecordLayout := by
  unfold Obligations.ConfigRecordLayout
  decide

/-! ### Byte sequences that are no frame -/

/-- The frame decoder on five bytes and more, check by check (R90, R91, R99). -/
theorem decodeWire_eq_ite (m0 m1 a cmd n : Byte) (r : List Byte) :
    decodeWire (m0 :: m1 :: a :: cmd :: n :: r) =
      if ¬ (m0 = 0x57#8 ∧ m1 = 0xAB#8) then .error .head
      else if a ≠ 0x00#8 then .error .addr
      else if r.length + 5 < 6 + n.toNat then .error .trunc
      else .ok (frameRow cmd ⟨n, r.take n.toNat, byteAt r n.toNat⟩, r.drop (n.toNat + 1)) := by
  simp only [decodeWire, ← not_and_or, ne_eq]
  refine if_congr Iff.rfl rfl (if_congr Iff.rfl rfl ?_)
  by_cases h : r.length + 5 < 6 + n.toNat
  · rw [if_pos h, List.drop_eq_nil_of_le (by omega)]
  · have hn : n.toNat < r.length := by omega
    rw [if_neg h, List.drop_eq_getElem_cons hn]
    simp [byteAt, hn]

/-- The frame decoder on fewer than five bytes (R91). -/
theorem decodeWire_of_length_lt {bytes : List Byte} (h : bytes.length < 5) :
    decodeWire bytes = .error .short := by
  unfold decodeWire
  split
  · simp only [List.length_cons] at h
    omega
  · rfl

/-- Settles O7: from five bytes on, each name is that of the first check that fails. -/
theorem frameDecoderRejectsByName : Obligations.FrameDecoderRejectsByName := by
  intro bytes
  rw [decodeInstr]
  match bytes with
  | m0 :: m1 :: a :: cmd :: n :: r =>
    have hn : byteAt (m0 :: m1 :: a :: cmd :: n :: r) 4 = n := rfl
    rw [decodeWire_eq_ite, hn]
    simp only [List.length_cons, List.cons_prefix_cons, List.nil_prefix, and_true,
      eq_comm (a := 0x57#8), eq_comm (a := 0xAB#8), eq_comm (a := 0x00#8)]
    by_cases hmagic : m0 = 0x57#8 ∧ m1 = 0xAB#8
    · by_cases haddr : a = 0x00#8
      · by_cases htrunc : r.length + 5 < 6 + n.toNat
        · simp [hmagic, haddr, htrunc]
        · simp [hmagic, haddr, htrunc]
      · simp [hmagic, haddr]
    · have hnoaddr : ¬ (m0 = 0x57#8 ∧ m1 = 0xAB#8 ∧ a = 0x00#8) :=
        fun ⟨h0, h1, _⟩ => hmagic ⟨h0, h1⟩
      simp [hmagic, hnoaddr]
  | [] | [_] | [_, _] | [_, _, _] | [_, _, _, _] =>
    rw [decodeWire_of_length_lt (by simp)]
    simp

/-! ### Table words -/

/-- Settles O9: the turn put first is a write of the operation's code, or the frame of the row read,
which decodes to that row again. -/
theorem fetchWordIsRunByTheNextStep : Obligations.FetchWordIsRunByTheNextStep := by
  intro s nbits w i hd
  unfold decodeTableWord at hd
  cases hr : decodeInstr (tableFormat nbits) (tableBytes nbits w) with
  | error e => simp [hr] at hd
  | ok x =>
    obtain ⟨j, rest⟩ := x
    obtain rfl : j = i := by simpa [hr] using hd
    cases hf : tableFormat nbits with
    | op8 =>
      have hbits : nbits ≤ 8 := by simpa [tableFormat] using hf
      have hbytes : tableBytes nbits w = [BitVec.ofNat 8 (w % 2 ^ nbits)] := by
        simp [tableBytes, hbits]
      rw [hf, hbytes] at hr
      cases hr
      exact step_op _ (w % 2 ^ nbits) s.pending (by simp [State.withFetchWord, tableInput, hf])
    | frame =>
      rw [hf] at hr
      obtain ⟨hl, hformat, -⟩ := encodeOfDecodeIsIdentity .frame _ rest j hr
      have hagain : decodeInstr .frame (encodeInstr j) = .ok (j, []) := by
        simpa [hformat] using decodeOfEncodeIsIdentity j [] hl
      exact stepRunsDecodedInstruction.2 _ _ j s.pending
        (by simp [State.withFetchWord, tableInput, hf, hr]) hagain

end Sys2Proof.Proofs

/-! # Proofs: the checksum of a frame, `ENCODE`, `DECODE` and the arrival of a frame -/

namespace Sys2Proof.Proofs

open Sys2Proof.Machine Sys2Proof.Laws

/-! ### The checksum of a frame -/

/-- The checksum adds over concatenation (R121). -/
@[simp] theorem checksum_append (a b : List Byte) :
    checksum (a ++ b) = checksum a + checksum b := by
  induction a with
  | nil => simp
  | cons x a ih => rw [List.cons_append, checksum_cons, checksum_cons, ih, BitVec.add_assoc]

/-- A frame's header sums to 0x02, the command and the length byte (R92). -/
@[simp] theorem checksum_frameHeader (cmd n : Byte) :
    checksum (frameHeader cmd n) = 0x02#8 + cmd + n := by
  simp only [frameHeader, Config.magic0, Config.magic1, Config.addr, checksum_cons, checksum_nil,
    BitVec.add_zero, ← BitVec.add_assoc]
  rfl

/-- The bytes of a frame before its last one, summed as numbers and then taken modulo 256 (R92). -/
theorem checksum_header_payload (cmd n : Byte) (p : List Byte) :
    checksum (frameHeader cmd n ++ p) =
      BitVec.ofNat 8 (0x57 + 0xAB + cmd.toNat + n.toNat + (p.map BitVec.toNat).sum) := by
  unfold checksum
  congr 1
  simp [frameHeader, Config.magic0, Config.magic1, Config.addr]
  omega

/-- Settles O19: the last byte is the sum of header and payload, and the whole frame adds it once
more. -/
theorem checksumOfAWholeFrame : Obligations.ChecksumOfAWholeFrame := by
  intro cmd p _
  have hbody : checksum (frameHeader cmd (BitVec.ofNat 8 p.length) ++ p) =
      0x02#8 + cmd + BitVec.ofNat 8 p.length + checksum p := by
    rw [checksum_append, checksum_frameHeader]
  rw [encodeFrame, hbody]
  refine ⟨List.getLast?_concat, ?_⟩
  rw [checksum_append, hbody, checksum_cons, checksum_nil, BitVec.add_zero, BitVec.two_mul]

/-! ### Rows and their last byte -/

/-- A row is well-formed when its payload is as long as declared and its last byte is the sum. -/
theorem wellFormed_frameRow (cmd : Byte) (b : FrameBody) :
    (frameRow cmd b).wellFormed = (b.lengthAgrees && b.sumAgrees cmd) := by
  simp [Instr.wellFormed]

/-- What it means that a last byte is right (R92). -/
theorem sumAgrees_iff {cmd : Byte} {b : FrameBody} :
    b.sumAgrees cmd = true ↔ b.sum = checksum (frameHeader cmd b.len ++ b.payload) :=
  beq_iff_eq

section
variable {cmd : Byte} {b : FrameBody} (h : b.lengthAgrees = true)
include h

/-- The length of header and payload (R90). -/
theorem length_frameHeader_payload :
    (frameHeader cmd b.len ++ b.payload).length = 5 + b.len.toNat := by
  rw [List.length_append, eq_of_beq h]
  rfl

/-- The bytes a frame's sum is taken over are its header and payload (R92). -/
theorem take_wireBytes :
    (wireBytes cmd b).take (5 + b.len.toNat) = frameHeader cmd b.len ++ b.payload := by
  rw [wireBytes, ← length_frameHeader_payload (cmd := cmd) h, List.take_left]

/-- A frame's payload stands behind its header (R90). -/
theorem payload_wireBytes : ((wireBytes cmd b).drop 5).take b.len.toNat = b.payload := by
  rw [← eq_of_beq h]
  exact List.take_left

/-- A frame's last byte stands behind its payload (R90). -/
theorem byteAt_wireBytes_last : byteAt (wireBytes cmd b) (5 + b.len.toNat) = b.sum := by
  have hlen := length_frameHeader_payload (cmd := cmd) h
  rw [wireBytes, byteAt_append_right _ _ _ hlen.le, hlen, Nat.sub_self]
  rfl

/-- `decode` of a frame with a payload of its declared length: the last byte alone tells whether it
succeeds (R134). -/
theorem decodeFrame_wireBytes :
    decodeFrame (wireBytes cmd b) =
      if b.sumAgrees cmd then .ok cmd b.len b.payload else .fail .sum := by
  have hsize := length_wireBytes_of_lengthAgrees cmd b h
  have hlong : ¬ 6 + b.len.toNat < Config.hdrSize := by
    rw [Config.hdrSize]
    omega
  have hmagic : ¬ (byteAt (wireBytes cmd b) 0 ≠ Config.magic0 ∨
      byteAt (wireBytes cmd b) 1 ≠ Config.magic1) := not_or.2 ⟨not_not.2 rfl, not_not.2 rfl⟩
  have haddr : ¬ byteAt (wireBytes cmd b) 2 ≠ Config.addr := not_not.2 rfl
  have hcmd : byteAt (wireBytes cmd b) 3 = cmd := rfl
  have hn : byteAt (wireBytes cmd b) 4 = b.len := rfl
  rw [decodeFrame, hn, hsize, if_neg hlong, if_neg hmagic, if_neg haddr, if_neg (lt_irrefl _),
    take_wireBytes h, byteAt_wireBytes_last h, payload_wireBytes h, hcmd]
  by_cases hs : b.sum = checksum (frameHeader cmd b.len ++ b.payload)
  · rw [if_neg (not_not.2 hs.symm), if_pos (sumAgrees_iff.2 hs)]
  · rw [if_pos (Ne.symm hs), if_neg (mt sumAgrees_iff.1 hs)]

end

/-! ### `ENCODE` -/

/-- A slice from index 0, written out. -/
theorem slice_zero (s : State) (sp : Space) (n : Nat) :
    s.slice sp 0 n = (List.range n).map fun k => s.readByte sp k := by
  simp [State.slice]

/-- The bytes of a run of writes from index 0 read back as they were written. -/
theorem slice_of_array_eq_writeList {s : State} {sp : Space} {m : Memory} {bs : List Byte}
    (h : s.array sp = Memory.writeList m 0 bs) : s.slice sp 0 bs.length = bs := by
  apply List.ext_getElem?
  intro k
  rw [getElem?_slice, State.readByte, h, Nat.zero_add, getD_lookup_writeList]
  by_cases hk : k < bs.length
  · simp [hk, byteAt]
  · simp [hk]

/-- The body of the frame `ENCODE` builds (R130, R132). -/
def encodedBody (s : State) : FrameBody :=
  ⟨s.encLen, s.encPayload, checksum (frameHeader s.encCmd s.encLen ++ s.encPayload)⟩

@[simp] theorem lengthAgrees_encodedBody (s : State) : (encodedBody s).lengthAgrees = true := by
  simp [encodedBody, FrameBody.lengthAgrees]

@[simp] theorem sumAgrees_encodedBody (s : State) :
    (encodedBody s).sumAgrees s.encCmd = true :=
  sumAgrees_iff.2 rfl

/-- What `ENCODE` writes is the wire form of its command and body. -/
theorem encodeFrame_eq_wireBytes_encodedBody (s : State) :
    encodeFrame s.encCmd s.encPayload = wireBytes s.encCmd (encodedBody s) := by
  rw [encodeFrame_eq_wireBytes, length_encPayload, BitVec.ofNat_toNat, BitVec.setWidth_eq]
  rfl

/-- The counted bytes of `TXBUF` after `ENCODE` are that frame. -/
theorem txBytes_of_encode {s t : State} (h : OpEffect s .encode t) :
    t.slice .txbuf 0 t.txlen.toNat = wireBytes s.encCmd (encodedBody s) := by
  cases h
  have hsize : (encodeFrame s.encCmd s.encPayload).length = 6 + s.encLen.toNat := by simp
  rw [succeed_txlen, toNat_encodedLength, ← hsize, ← encodeFrame_eq_wireBytes_encodedBody]
  exact slice_of_array_eq_writeList (m := s.txbuf) rfl

/-- Settles O21: `ENCODE` leaves the frame of its command and body in `TXBUF`, and the decoder reads
the row of that frame. -/
theorem encodedFrameIsTheRowOfItsCommand : Obligations.EncodedFrameIsTheRowOfItsCommand := by
  intro s t he
  have ht := (exec_eq_next_iff rfl).1 he
  refine ⟨frameRow s.encCmd (encodedBody s), (encodedBody s).sum, ?_, ?_, ?_⟩
  · rw [← slice_zero]
    rfl
  · simp [wellFormed_frameRow]
  · rw [← slice_zero, txBytes_of_encode ht, decodeInstr]
    simpa using decodeWire_wireBytes s.encCmd (encodedBody s) [] (lengthAgrees_encodedBody s)

/-! ### The arrival of a frame -/

/-- Settles O13: a frame row is repeated appends of its bytes, whose law says the rest. -/
theorem frameRowsEnterTheReceiveBuffer : Obligations.FrameRowsEnterTheReceiveBuffer := by
  intro i cmd b s hp bytes k
  refine ⟨_, exec_of_frameParts i cmd b s hp, ?_, pushBytes_readByte s bytes⟩
  have hdropped : decide (s.bufCap - s.rxlen < bytes.length) = decide (k < bytes.length) := by
    rw [decide_eq_decide]
    omega
  rw [← hdropped, pushBytes_eq]
  rfl

/-- A frame that arrives in an emptied receive buffer it fits in is the operand of `DECODE`. -/
theorem rxFromOff_pushBytes {s : State} {bs : List Byte} (hoff : s.off = 0) (hrx : s.rxlen = 0)
    (hroom : bs.length ≤ s.bufCap) : (s.pushBytes bs).rxFromOff = bs := by
  have hoff' : (s.pushBytes bs).off = 0 := by rw [pushBytes_eq, hoff]
  rw [rxFromOff_eq, hoff', List.drop_zero, rxBytes_pushBytes s bs (by omega), State.rxBytes, hrx]
  rfl

/-- Appends that all fit leave `OVF` as it was. -/
theorem ovf_pushBytes {s : State} {bs : List Byte} (hroom : s.rxlen + bs.length ≤ s.bufCap) :
    (s.pushBytes bs).status.ovf = s.status.ovf := by
  have hfits : ¬ s.bufCap - s.rxlen < bs.length := by omega
  simp [pushBytes_eq, hfits]

/-- Settles O14: after `CLR` the frame is all of `DECODE`'s operand, and the last byte decides. -/
theorem frameRowThenDecodeDeliversItsCommand :
    Obligations.FrameRowThenDecodeDeliversItsCommand := by
  intro i cmd b s hp hlen hroom
  have hagrees : b.lengthAgrees = true := beq_iff_eq.2 hlen
  have hsize := length_wireBytes_of_lengthAgrees cmd b hagrees
  refine ⟨_, _, OpEffect.clr.exec_eq, exec_of_frameParts i cmd b _ hp, ?_⟩
  rw [← checksum_header_payload]
  generalize hu : State.pushBytes _ (wireBytes cmd b) = u
  have hovf : u.status.ovf = false := by
    rw [← hu, ovf_pushBytes (by simpa [hsize] using hroom)]
    rfl
  have hdecode : decodeFrame u.rxFromOff =
      if b.sumAgrees cmd then .ok cmd b.len b.payload else .fail .sum := by
    rw [← hu, rxFromOff_pushBytes rfl rfl (by simpa [hsize] using hroom)]
    exact decodeFrame_wireBytes hagrees
  refine ⟨fun hsum => ?_, fun hsum => ?_⟩
  · rw [if_pos (sumAgrees_iff.2 hsum)] at hdecode
    refine ⟨_, execDecode_of_ok u cmd b.len b.payload hdecode, rfl, rfl, fun k hk => ?_, ?_⟩
    · rw [succeed_readByte]
      exact (getD_lookup_writeList _ _ _ _).trans (if_pos (hlen ▸ hk))
    · rw [succeed_status, Status.succeeded, plausible_eq, hovf]
  · rw [if_neg (mt sumAgrees_iff.1 hsum)] at hdecode
    rw [execDecode_of_fail u .sum hdecode, State.raise, Status.failed, hovf]
    rfl

/-! ### A burst of pushes -/

/-- An append access does not look at what the host does next. -/
theorem pushByte_pending (s : State) (b : Byte) (p : List Input) :
    { s with pending := p }.pushByte b = { s.pushByte b with pending := p } := by
  unfold State.pushByte
  split <;> rfl

/-- A `PUSH` event appends its byte (R65, R113). -/
theorem step_pushEvent {s : State} {b : Byte} {rest : List Input}
    (hp : s.pending = .event (pushEvent b) :: rest) :
    step s = .next ({ s with pending := rest }.pushByte b) := by
  have h := step_of_accessEffect hp nofun (.push b.toNat)
  rwa [BitVec.ofNat_toNat, BitVec.setWidth_eq] at h

/-- The host's turns of `PUSH b0 b1 ...` taken one by one (R113). -/
def pushTurns (bytes : List Byte) : List Input := bytes.map fun b => .event (pushEvent b)

/-- A run of `PUSH` events appends their bytes. -/
theorem run_pushTurns (s : State) (bytes : List Byte) (rest : List Input) :
    Host.Core.run Sys2Proof.core bytes.length { s with pending := pushTurns bytes ++ rest } =
      .next ({ s with pending := rest }.pushBytes bytes) := by
  induction bytes generalizing s with
  | nil => rfl
  | cons b bytes ih =>
    have hstep : step { s with pending := pushTurns (b :: bytes) ++ rest } =
        .next { s.pushByte b with pending := pushTurns bytes ++ rest } := by
      rw [step_pushEvent rfl, ← pushByte_pending]
      rfl
    rw [List.length_cons, run_succ_of_next _ _ _ hstep, ih (s.pushByte b), ← pushByte_pending]
    rfl

/-- Settles O11: both are the appends of the bytes in order. -/
theorem pushBurstIsThatManyAppends : Obligations.PushBurstIsThatManyAppends := by
  intro s bytes rest hp
  exact (step_push s bytes rest hp).trans (run_pushTurns s bytes rest).symm

end Sys2Proof.Proofs

/-! # Proofs: the laws of the checksum, and `CKSUM` -/

namespace Sys2Proof.Proofs

open Sys2Proof.Machine Sys2Proof.Laws

/-! ### The laws of the checksum (R121) -/

/-- An 8-bit accumulator that has come to `acc` adds the checksum of the bytes that follow. -/
theorem foldl_add_eq_add_checksum (b : List Byte) (acc : Byte) :
    b.foldl (fun acc x => acc + x) acc = acc + checksum b := by
  induction b generalizing acc with
  | nil => simp
  | cons x b ih => rw [List.foldl_cons, ih, checksum_cons, BitVec.add_assoc]

/-- The order of the bytes does not matter: the sum of the numbers is the same. -/
theorem checksum_eq_of_perm {a b : List Byte} (h : a.Perm b) : checksum a = checksum b := by
  rw [checksum, checksum, (h.map BitVec.toNat).sum_eq]

/-- Two sequences that differ in one byte have the same checksum only if that byte is the same. -/
theorem checksum_replace_inj {a b : List Byte} {x y : Byte} :
    checksum (a ++ x :: b) = checksum (a ++ y :: b) ↔ x = y := by
  rw [checksum_append, checksum_append, checksum_cons, checksum_cons, add_right_inj, add_left_inj]

/-- What one byte gains and another loses leaves the checksum as it was. -/
theorem checksum_cancelling_changes (a b c : List Byte) (x y d : Byte) :
    checksum (a ++ (x + d) :: b ++ (y - d) :: c) = checksum (a ++ x :: b ++ y :: c) := by
  simp only [checksum_append, checksum_cons]
  ring

/-- Settles O18: the accumulator from 0 by the general accumulator, each other law by its lemma. -/
theorem checksumLaws : Obligations.ChecksumLaws :=
  ⟨fun b => by rw [foldl_add_eq_add_checksum, BitVec.zero_add],
    checksum_append,
    fun _ _ => checksum_eq_of_perm,
    fun _ _ _ _ => mt checksum_replace_inj.1,
    checksum_cancelling_changes⟩

/-! ### `CKSUM` (R122) -/

/-- The checksum of the counted bytes of `RXBUF`, byte by byte as numbers. -/
theorem checksum_rxBytes (s : State) :
    checksum s.rxBytes = BitVec.ofNat 8
      (((List.range s.rxlen).map fun k => (s.readByte .rxbuf k).toNat).sum % 256) := by
  apply BitVec.eq_of_toNat_eq
  simp [checksum, State.rxBytes, State.slice, Function.comp_def]

/-- Settles O17: what `CKSUM` leaves is its effect, with the sum written out. -/
theorem cksumOperation : Obligations.CksumOperation := by
  refine ⟨rfl, fun s => ?_⟩
  rw [OpEffect.cksum.exec_eq, checksum_rxBytes]
  rfl

end Sys2Proof.Proofs

/-! # Proofs: the codec

What `decode` accepts and rejects, what follows the frame, one changed byte, the round trip, and the
operations `ENCODE` and `DECODE` byte for byte (41_codec.md). -/

namespace Sys2Proof.Proofs

open Sys2Proof.Machine Sys2Proof.Laws

/-! ### Header bytes -/

/-- A sequence with room for a header is its first five bytes and the rest. -/
theorem eq_header_append_drop {b : List Byte} (h : 5 ≤ b.length) :
    b = [byteAt b 0, byteAt b 1, byteAt b 2, byteAt b 3, byteAt b 4] ++ b.drop 5 :=
  match b, h with
  | _ :: _ :: _ :: _ :: _ :: _, _ => rfl

/-- The test of the two magic bytes (R134). -/
theorem beginsWithMagic_iff {b : List Byte} (h : 5 ≤ b.length) :
    [0x57#8, 0xAB#8] <+: b ↔ byteAt b 0 = 0x57#8 ∧ byteAt b 1 = 0xAB#8 := by
  rw [eq_header_append_drop h]
  simp [byteAt, eq_comm]

/-- The test of the magic bytes and the address byte (R134). -/
theorem beginsWithAddress_iff {b : List Byte} (h : 5 ≤ b.length) :
    [0x57#8, 0xAB#8, 0x00#8] <+: b ↔ [0x57#8, 0xAB#8] <+: b ∧ byteAt b 2 = 0x00#8 := by
  rw [eq_header_append_drop h]
  simp [byteAt, eq_comm, and_assoc]

/-! ### What `decode` rejects -/

/-- The ways `decode` fails: the first check that fails, those before it having passed (R134,
R202). -/
inductive DecodeFailure (b : List Byte) : FailReason → Prop
  | short (hlen : b.length < 5) : DecodeFailure b .short
  | head (hlen : 5 ≤ b.length) (hmagic : ¬ [0x57#8, 0xAB#8] <+: b) : DecodeFailure b .head
  | addr (hlen : 5 ≤ b.length) (hmagic : [0x57#8, 0xAB#8] <+: b)
      (haddr : ¬ [0x57#8, 0xAB#8, 0x00#8] <+: b) : DecodeFailure b .addr
  | trunc (hlen : 5 ≤ b.length) (haddr : [0x57#8, 0xAB#8, 0x00#8] <+: b)
      (hcut : b.length < 6 + (byteAt b 4).toNat) : DecodeFailure b .trunc
  | sum (hlen : 5 ≤ b.length) (haddr : [0x57#8, 0xAB#8, 0x00#8] <+: b)
      (hfits : 6 + (byteAt b 4).toNat ≤ b.length)
      (hsum : checksum (b.take (5 + (byteAt b 4).toNat)) ≠ byteAt b (5 + (byteAt b 4).toNat)) :
      DecodeFailure b .sum

/-- The checks of `decode` behind the first one, the header tested by what the sequence
begins with (R134). -/
theorem decodeFrame_of_length {b : List Byte} (hlen : 5 ≤ b.length) :
    decodeFrame b =
      if ¬ [0x57#8, 0xAB#8] <+: b then .fail .head
      else if ¬ [0x57#8, 0xAB#8, 0x00#8] <+: b then .fail .addr
      else if b.length < 6 + (byteAt b 4).toNat then .fail .trunc
      else if checksum (b.take (5 + (byteAt b 4).toNat)) ≠ byteAt b (5 + (byteAt b 4).toNat) then
        .fail .sum
      else .ok (byteAt b 3) (byteAt b 4) ((b.drop 5).take (byteAt b 4).toNat) := by
  have hmagic : (byteAt b 0 ≠ Config.magic0 ∨ byteAt b 1 ≠ Config.magic1) ↔
      ¬ [0x57#8, 0xAB#8] <+: b := by
    rw [beginsWithMagic_iff hlen, not_and_or]
    rfl
  rw [decodeFrame, if_neg (show ¬ b.length < Config.hdrSize from not_lt.2 hlen)]
  by_cases hm : [0x57#8, 0xAB#8] <+: b
  · have haddr : byteAt b 2 ≠ Config.addr ↔ ¬ [0x57#8, 0xAB#8, 0x00#8] <+: b := by
      rw [beginsWithAddress_iff hlen, and_iff_right hm]
      rfl
    simp only [hmagic, haddr, gt_iff_lt]
  · rw [if_pos (hmagic.2 hm), if_pos hm]

/-- The inversion of `decode` where it fails. -/
theorem decodeFrame_eq_fail_iff {b : List Byte} {r : FailReason} :
    decodeFrame b = .fail r ↔ DecodeFailure b r := by
  constructor
  · intro hd
    by_cases hlen : b.length < 5
    · obtain rfl : FailReason.short = r := Decoded.fail.inj ((if_pos hlen).symm.trans hd)
      exact .short hlen
    · have hlen := not_lt.1 hlen
      rw [decodeFrame_of_length hlen] at hd
      split at hd
      · next hm => cases hd; exact .head hlen hm
      next hm =>
      split at hd
      · next ha => cases hd; exact .addr hlen (not_not.1 hm) ha
      next ha =>
      split at hd
      · next hc => cases hd; exact .trunc hlen (not_not.1 ha) hc
      next hc =>
      split at hd
      · next hs => cases hd; exact .sum hlen (not_not.1 ha) (not_lt.1 hc) hs
      · cases hd
  · intro hf
    cases hf with
    | short hlen => exact if_pos hlen
    | head hlen hm => rw [decodeFrame_of_length hlen, if_pos hm]
    | addr hlen hm ha => rw [decodeFrame_of_length hlen, if_neg (not_not.2 hm), if_pos ha]
    | trunc hlen ha hc =>
      have hm := ((beginsWithAddress_iff hlen).1 ha).1
      rw [decodeFrame_of_length hlen, if_neg (not_not.2 hm), if_neg (not_not.2 ha), if_pos hc]
    | sum hlen ha hc hs =>
      have hm := ((beginsWithAddress_iff hlen).1 ha).1
      rw [decodeFrame_of_length hlen, if_neg (not_not.2 hm), if_neg (not_not.2 ha),
        if_neg (not_lt.2 hc), if_pos hs]

/-! ### What `decode` accepts -/

/-- `decode` does not look beyond the frame its header declares (R136). -/
theorem decodeFrame_append {b : List Byte} (tail : List Byte)
    (h : 6 + (byteAt b 4).toNat ≤ b.length) : decodeFrame (b ++ tail) = decodeFrame b := by
  have hlt (k : Nat) (hk : k < 6 + (byteAt b 4).toNat) : byteAt (b ++ tail) k = byteAt b k :=
    byteAt_append_left b tail k (by omega)
  have hlen : ¬ (b ++ tail).length < Config.hdrSize := by
    rw [List.length_append, Config.hdrSize]
    omega
  have hfits : ¬ 6 + (byteAt b 4).toNat > (b ++ tail).length := by
    rw [List.length_append]
    omega
  have hpay : ((b ++ tail).drop 5).take (byteAt b 4).toNat =
      (b.drop 5).take (byteAt b 4).toNat := by
    rw [List.drop_append_of_le_length (by omega), List.take_append_of_le_length]
    rw [List.length_drop]
    omega
  rw [decodeFrame, decodeFrame, hlt 0 (by omega), hlt 1 (by omega), hlt 2 (by omega),
    hlt 3 (by omega), hlt 4 (by omega), hlt _ (by omega), hpay,
    List.take_append_of_le_length (by omega), if_neg hlen, if_neg hfits,
    if_neg (show ¬ b.length < Config.hdrSize by rw [Config.hdrSize]; omega), if_neg (not_lt.2 h)]

/-- Settles O24: a frame that decodes is as long as its header declares. -/
theorem decodeIgnoresBytesAfterTheFrame : Obligations.DecodeIgnoresBytesAfterTheFrame := by
  intro f tail cmd n p hd
  obtain ⟨-, -, -, -, hfits, -⟩ := (decodeFrame_ok_iff f cmd n p).1 hd
  exact decodeFrame_append tail hfits

/-- The body of a frame with its last byte right (R90, R92). -/
def rightBody (cmd n : Byte) (p : List Byte) : FrameBody :=
  ⟨n, p, checksum (frameHeader cmd n ++ p)⟩

/-- `decode` accepts a frame with its last byte right, whatever follows (R134, R136). -/
theorem decodeFrame_rightBody_append {cmd n : Byte} {p : List Byte} (hlen : p.length = n.toNat)
    (tail : List Byte) : decodeFrame (wireBytes cmd (rightBody cmd n p) ++ tail) = .ok cmd n p := by
  have hagrees : (rightBody cmd n p).lengthAgrees = true := beq_iff_eq.2 hlen
  have hfits : 6 + (byteAt (wireBytes cmd (rightBody cmd n p)) 4).toNat ≤
      (wireBytes cmd (rightBody cmd n p)).length :=
    (length_wireBytes_of_lengthAgrees cmd _ hagrees).ge
  rw [decodeFrame_append tail hfits, decodeFrame_wireBytes hagrees, if_pos (sumAgrees_iff.2 rfl)]
  rfl

/-- `decode` accepts nothing else (R134). -/
theorem eq_wireBytes_append_of_decodeFrame {b p : List Byte} {cmd n : Byte}
    (hd : decodeFrame b = .ok cmd n p) :
    b = wireBytes cmd (rightBody cmd n p) ++ b.drop (6 + n.toNat) := by
  obtain ⟨hlen, h0, h1, h2, hfits, hsum, rfl, rfl, rfl⟩ := (decodeFrame_ok_iff b cmd n p).1 hd
  set n := byteAt b 4
  have hheader : b.take 5 = frameHeader (byteAt b 3) n := by
    rw [eq_header_append_drop hlen, h0, h1, h2]
    rfl
  have hbody : b.take (5 + n.toNat) = frameHeader (byteAt b 3) n ++ (b.drop 5).take n.toNat := by
    rw [List.take_add, hheader]
  have hlast : b.drop (5 + n.toNat) = byteAt b (5 + n.toNat) :: b.drop (6 + n.toNat) := by
    rw [List.drop_eq_getElem_cons (by omega), byteAt, List.getD_eq_getElem _ _ (by omega)]
    congr 2
    omega
  calc b = b.take (5 + n.toNat) ++ b.drop (5 + n.toNat) := (List.take_append_drop _ _).symm
    _ = wireBytes (byteAt b 3) (rightBody (byteAt b 3) n ((b.drop 5).take n.toNat)) ++
          b.drop (6 + n.toNat) := by
      rw [hlast, ← hsum, hbody, wireBytes, rightBody, List.append_assoc _ [_],
        List.singleton_append]

/-- Settles O23: acceptance by the form of the frames `decode` accepts, each reason by its
inversion. -/
theorem decodeChecksInOrder : Obligations.DecodeChecksInOrder := by
  intro b
  simp only [decodeFrame_eq_fail_iff]
  refine ⟨fun cmd n p => ⟨fun hd => ?_, ?_⟩, ?_, ?_, ?_, ?_, ?_⟩
  · exact ⟨length_of_decodeFrame_ok hd, _, eq_wireBytes_append_of_decodeFrame hd⟩
  · rintro ⟨hlen, tail, rfl⟩
    exact decodeFrame_rightBody_append hlen tail
  · exact ⟨fun | .short h => h, .short⟩
  · exact ⟨fun | .head hlen hm => ⟨hlen, hm⟩, fun ⟨hlen, hm⟩ => .head hlen hm⟩
  · exact ⟨fun | .addr hlen hm ha => ⟨hlen, hm, ha⟩, fun ⟨hlen, hm, ha⟩ => .addr hlen hm ha⟩
  · exact ⟨fun | .trunc hlen ha hc => ⟨hlen, ha, hc⟩, fun ⟨hlen, ha, hc⟩ => .trunc hlen ha hc⟩
  · exact ⟨fun | .sum hlen ha hc hs => ⟨hlen, ha, hc, hs⟩,
      fun ⟨hlen, ha, hc, hs⟩ => .sum hlen ha hc hs⟩

/-! ### `encode` and `decode` -/

/-- The length byte of a payload that fits (R130). -/
theorem toNat_ofNat_length {p : List Byte} (hp : p.length ≤ 255) :
    (BitVec.ofNat 8 p.length).toNat = p.length := by
  rw [BitVec.toNat_ofNat, Nat.mod_eq_of_lt (by omega)]

/-- `decode` of an encoded frame, whatever follows (R140). -/
theorem decodeFrame_encodeFrame_append {p : List Byte} (hp : p.length ≤ 255) (cmd : Byte)
    (tail : List Byte) :
    decodeFrame (encodeFrame cmd p ++ tail) = .ok cmd (BitVec.ofNat 8 p.length) p :=
  decodeFrame_rightBody_append (toNat_ofNat_length hp).symm tail

/-- `decode` of an encoded frame (R140). -/
theorem decodeFrame_encodeFrame {p : List Byte} (hp : p.length ≤ 255) (cmd : Byte) :
    decodeFrame (encodeFrame cmd p) = .ok cmd (BitVec.ofNat 8 p.length) p := by
  simpa using decodeFrame_encodeFrame_append hp cmd []

/-- Settles O27: `decode` gives command and payload back. -/
theorem encodeIsInjective : Obligations.EncodeIsInjective := by
  intro cmd cmd' p p' hp hp' he
  have hd := (decodeFrame_encodeFrame hp cmd).symm.trans (he ▸ decodeFrame_encodeFrame hp' cmd')
  obtain ⟨hcmd, -, hpay⟩ := Decoded.ok.inj hd
  exact ⟨hcmd, hpay⟩

/-! ### One changed byte -/

/-- A byte before the cut is read as before. -/
theorem byteAt_take {b : List Byte} {k m : Nat} (h : k < m) : byteAt (b.take m) k = byteAt b k := by
  rw [byteAt, byteAt, List.getD_eq_getElem?_getD, List.getD_eq_getElem?_getD,
    List.getElem?_take_of_lt h]

/-- Putting another byte in one place changes the checksum (R121). -/
theorem checksum_set_inj {b : List Byte} {k : Nat} (hk : k < b.length) {x : Byte} :
    checksum (b.set k x) = checksum b ↔ x = byteAt b k := by
  have hb : b = b.take k ++ byteAt b k :: b.drop (k + 1) := by
    simp [byteAt, hk]
  rw [List.set_eq_take_append_cons_drop, if_pos hk]
  nth_rw 3 [hb]
  exact checksum_replace_inj

/-- A byte put in one place is read elsewhere as what was there. -/
theorem byteAt_set_of_ne (b : List Byte) {k j : Nat} (x : Byte) (h : k ≠ j) :
    byteAt (b.set k x) j = byteAt b j := by
  rw [byteAt, byteAt, List.getD_eq_getElem?_getD, List.getD_eq_getElem?_getD,
    List.getElem?_set_ne h]

/-- A byte put in one place is read there. -/
theorem byteAt_set_self {b : List Byte} {k : Nat} (x : Byte) (h : k < b.length) :
    byteAt (b.set k x) k = x := by
  rw [byteAt, List.getD_eq_getElem?_getD, List.getElem?_set_self h]
  rfl

/-- Two frames that `decode` accepts and that differ at most in one byte, not the length byte, are
the same: both last bytes are the sum of the bytes before them, as many in both (R141, C4). -/
theorem eq_byteAt_of_decodeFrame_set {b p p' : List Byte} {cmd n cmd' n' x : Byte} {k : Nat}
    (hd : decodeFrame b = .ok cmd n p) (hd' : decodeFrame (b.set k x) = .ok cmd' n' p')
    (hk : k < 6 + n.toNat) (hk4 : k ≠ 4) : x = byteAt b k := by
  obtain ⟨-, -, -, -, hfits, hsum, -, rfl, -⟩ := (decodeFrame_ok_iff b cmd n p).1 hd
  obtain ⟨-, -, -, -, -, hsum', -⟩ := (decodeFrame_ok_iff _ cmd' n' p').1 hd'
  rw [byteAt_set_of_ne b x hk4] at hsum'
  generalize (byteAt b 4).toNat = m at *
  rcases Nat.lt_succ_iff_lt_or_eq.1 (show k < (5 + m) + 1 by omega) with hbody | hlast
  · rw [byteAt_set_of_ne b x hbody.ne, ← hsum, List.take_set,
      checksum_set_inj (by rw [List.length_take]; omega)] at hsum'
    rw [hsum', byteAt_take hbody]
  · rw [hlast, List.take_set_of_le le_rfl, byteAt_set_self x (by omega), hsum] at hsum'
    rw [hlast, hsum']

/-- Settles O26: an accepted change would leave the byte as it was; a raised length byte declares
more than there is. -/
theorem singleByteCorruptionIsDetected : Obligations.SingleByteCorruptionIsDetected := by
  refine ⟨fun cmd x p tail k hp hk hk4 hx => ?_, fun cmd x p hlt => ?_, by decide, by decide⟩
  · rcases decodeFrame_cases ((encodeFrame cmd p).set k x ++ tail) with ⟨cmd', n', p', hd⟩ | hr
    · have hk' : k < (encodeFrame cmd p).length := by rwa [length_encodeFrame]
      have hbyte := byteAt_append_left (encodeFrame cmd p) tail k hk'
      rw [← List.set_append_left _ _ hk'] at hd
      have hsame := eq_byteAt_of_decodeFrame_set (decodeFrame_encodeFrame_append hp cmd tail) hd
        (by rwa [toNat_ofNat_length hp]) hk4
      exact absurd (hsame.trans hbyte) hx
    · exact hr
  · have hlen : ((encodeFrame cmd p).set 4 x).length = 6 + p.length := by simp
    refine decodeFrame_eq_fail_iff.2 (.trunc (by omega) ⟨_, rfl⟩ ?_)
    rw [hlen, byteAt_set_self x (by rw [length_encodeFrame]; omega)]
    omega

/-! ### The round trip through the registers -/

/-- The payload of the frame `ENCODE` builds is read from `ENC_PAY` (R132). -/
theorem byteAt_encPayload (s : State) {k : Nat} (hk : k < s.encLen.toNat) :
    byteAt s.encPayload k = s.readByte .encPay k := by
  rw [State.encPayload, byteAt_slice _ _ _ _ _ hk, Nat.zero_add]

/-- Settles O25: the bytes pushed are the frame `ENCODE` built, so they arrive as its row does and
deliver its command. -/
theorem encodeThenDecodeRoundTrip : Obligations.EncodeThenDecodeRoundTrip := by
  refine ⟨fun cmd p hp => decodeFrame_encodeFrame hp cmd, fun s hroom => ?_⟩
  obtain ⟨t, ht⟩ := exists_opEffect s (i := .encode) rfl
  have hcap : t.bufCap = s.bufCap := by cases ht; rfl
  obtain ⟨u, w, hclr, harrive, hdecode, -⟩ := frameRowThenDecodeDeliversItsCommand
    (frameRow s.encCmd (encodedBody s)) s.encCmd (encodedBody s) t (frameParts_frameRow ..)
    (length_encPayload s) (hcap ▸ hroom)
  obtain ⟨v, hv, hcmd, hlen, hpay, hstatus⟩ := hdecode (checksum_header_payload ..)
  obtain rfl : u.pushBytes (wireBytes s.encCmd (encodedBody s)) = w :=
    Host.Outcome.next.inj
      ((exec_of_frameParts _ _ _ u (frameParts_frameRow ..)).symm.trans harrive)
  refine ⟨t, u, v, ht.exec_eq, hclr, ?_, by rw [hstatus], hcmd, hlen, fun k hk => ?_⟩
  · rw [← slice_zero, txBytes_of_encode ht, hv]
  · exact (hpay k hk).trans (byteAt_encPayload s hk)

/-! ### The operations byte by byte -/

/-- The first five bytes of a frame are its header (R90). -/
theorem byteAt_wireBytes_header (cmd : Byte) (b : FrameBody) {k : Nat} (hk : k < 5) :
    byteAt (wireBytes cmd b) k = byteAt (frameHeader cmd b.len) k := by
  rw [wireBytes, List.append_assoc]
  exact byteAt_append_left _ _ _ hk

/-- The bytes of a frame between its header and its last byte are its payload (R90). -/
theorem byteAt_wireBytes_payload {cmd : Byte} {b : FrameBody} (h : b.lengthAgrees = true) {k : Nat}
    (hheader : 5 ≤ k) (hk : k < 5 + b.len.toNat) :
    byteAt (wireBytes cmd b) k = byteAt b.payload (k - 5) := by
  rw [wireBytes, byteAt_append_left _ _ _ (by rwa [length_frameHeader_payload h])]
  exact byteAt_append_right _ _ _ hheader

/-- The last byte of the frame `ENCODE` builds, summed byte by byte (R130, R132). -/
theorem sum_encodedBody (s : State) :
    (encodedBody s).sum = BitVec.ofNat 8 (0x57 + 0xAB + 0x00 + s.encCmd.toNat + s.encLen.toNat +
      ((List.range s.encLen.toNat).map fun j => (s.readByte .encPay j).toNat).sum) := by
  rw [encodedBody, checksum_header_payload, State.encPayload, slice_zero, List.map_map]
  rfl

/-- The state `ENCODE` leaves (R132). -/
def encoded (s : State) : State :=
  { s with
    txbuf := Memory.writeList s.txbuf 0 (encodeFrame s.encCmd s.encPayload)
    txlen := BitVec.ofNat 9 (6 + s.encLen.toNat) }.succeed false

/-- Reading `TXBUF` after `ENCODE` (R132). -/
theorem readByte_encoded (s : State) (k : Nat) :
    (encoded s).readByte .txbuf k =
      if k < 6 + s.encLen.toNat then byteAt (wireBytes s.encCmd (encodedBody s)) k
      else s.readByte .txbuf k := by
  have hsize : (wireBytes s.encCmd (encodedBody s)).length = 6 + s.encLen.toNat :=
    length_wireBytes_of_lengthAgrees _ _ (lengthAgrees_encodedBody s)
  rw [← hsize, ← encodeFrame_eq_wireBytes_encodedBody]
  exact getD_lookup_writeList _ _ k _

/-- Settles O20: `TXBUF` reads as header, payload and last byte of the frame up to its length, and
as before from there on. -/
theorem encodeOperation : Obligations.EncodeOperation := by
  refine ⟨rfl, fun s =>
    ⟨encoded s, OpEffect.encode.exec_eq, rfl, toNat_encodedLength s.encLen, fun k => ?_⟩⟩
  have hagrees := lengthAgrees_encodedBody s
  rw [readByte_encoded, ← sum_encodedBody]
  by_cases hheader : k < 5
  · rw [if_pos (by omega), if_pos hheader]
    exact byteAt_wireBytes_header _ _ hheader
  by_cases hpay : k < 5 + s.encLen.toNat
  · rw [if_pos (by omega), if_neg hheader, if_pos hpay, ← byteAt_encPayload s (by omega)]
    exact byteAt_wireBytes_payload hagrees (not_lt.1 hheader) hpay
  by_cases hlast : k = 5 + s.encLen.toNat
  · rw [if_pos (by omega), if_neg hheader, if_neg hpay, if_pos hlast, hlast]
    exact byteAt_wireBytes_last hagrees
  · rw [if_neg (by omega), if_neg hheader, if_neg hpay, if_neg hlast]

/-- The state a `DECODE` that succeeds leaves (R138). -/
def decoded (s : State) (cmd n : Byte) (p : List Byte) : State :=
  { s with
    decCmd := cmd
    decLen := n
    decPay := Memory.writeList s.decPay 0 p }.succeed (plausible cmd)

/-- Reading `DEC_PAY` after a `DECODE` that succeeds (R138). -/
theorem readByte_decoded (s : State) {cmd n : Byte} {p : List Byte} (hlen : p.length = n.toNat)
    (k : Nat) :
    (decoded s cmd n p).readByte .decPay k =
      if k < n.toNat then byteAt p k else s.readByte .decPay k := by
  rw [← hlen]
  exact getD_lookup_writeList _ _ k _

/-- Settles O22: `DECODE` leaves its operand as it was, so a second one writes the same bytes over
the first one's. -/
theorem decodeOperation : Obligations.DecodeOperation := by
  refine ⟨rfl, rfl, fun s => ⟨fun cmd n p hd => ?_, fun r hd => execDecode_of_fail s r hd⟩⟩
  have hread (t : State) := readByte_decoded t (cmd := cmd) (length_of_decodeFrame_ok hd)
  rw [← plausible_eq]
  refine ⟨decoded s cmd n p, execDecode_of_ok s cmd n p hd, rfl, hread s,
    decoded (decoded s cmd n p) cmd n p, execDecode_of_ok _ cmd n p hd, rfl, fun k => ?_⟩
  rw [hread, hread]
  split <;> rfl

end Sys2Proof.Proofs

/-! # Proofs: the scanner

What `find` returns and how far it has to look, what `FIND` leaves, and why the frame it locates stays
there for `DECODE` (42_scanner.md). -/

namespace Sys2Proof.Proofs

open Sys2Proof.Machine Sys2Proof.Laws

/-! ### What `find` returns -/

/-- An index at which `decode` succeeds has the six bytes of the shortest frame from it on (R135,
R152). -/
theorem le_length_of_declaredLength_drop {b : List Byte} {i : Nat} {n : Byte}
    (h : declaredLength (b.drop i) = some n) : i + 6 ≤ b.length := by
  by_contra hlt
  rw [declaredLength_short _ (by rw [List.length_drop]; omega)] at h
  cases h

/-- The declared length is the length byte of a sequence that `decode` accepts (R150). -/
theorem declaredLength_drop_eq_some {b : List Byte} {i : Nat} {n : Byte} :
    declaredLength (b.drop i) = some n ↔
      n = byteAt b (i + 4) ∧ ∃ cmd m p, decodeFrame (b.drop i) = .ok cmd m p := by
  have hbyte {cmd m : Byte} {p : List Byte} (hd : decodeFrame (b.drop i) = .ok cmd m p) :
      m = byteAt b (i + 4) := by
    obtain ⟨-, -, -, -, -, -, -, hm, -⟩ := (decodeFrame_ok_iff _ cmd m p).1 hd
    rw [hm, byteAt_drop]
  rw [declaredLength_eq_some]
  constructor
  · rintro ⟨cmd, p, hd⟩
    exact ⟨hbyte hd, cmd, n, p, hd⟩
  · rintro ⟨rfl, cmd, m, p, hd⟩
    exact ⟨cmd, p, hbyte hd ▸ hd⟩

/-- Settles O28: the scan's own account, with `decode` in place of the declared length. -/
theorem findIsTheSmallestIndex : Obligations.FindIsTheSmallestIndex := by
  intro b
  refine ⟨fun i n => ?_, ?_⟩
  · simp only [findFrame_eq_some, declaredLength_drop_eq_some, declaredLength_eq_none, and_assoc]
  · simp only [findFrame_eq_none, declaredLength_eq_none]

/-- Settles O31: `decode` accepts the frame whatever follows, and no smaller index. -/
theorem findSkipsLeadingGarbage : Obligations.FindSkipsLeadingGarbage := by
  intro g p tail cmd hp hg
  refine (findFrame_eq_some _ _ _).2 ⟨?_, fun i hi => (declaredLength_eq_none _).2 (hg i hi)⟩
  rw [List.append_assoc, List.drop_left, declaredLength_eq_some]
  exact ⟨cmd, p, decodeFrame_encodeFrame_append hp cmd tail⟩

/-- Settles O32: an index at which `decode` succeeds is at most `L - 6`, so it is among those
tried. -/
theorem scanBoundIsUnobservable : Obligations.ScanBoundIsUnobservable := by
  intro b tries htries
  refine Option.ext fun ⟨i, n⟩ => ?_
  rw [scanFrom_eq_some, findFrame_eq_some]
  constructor
  · rintro ⟨-, -, hd, hfirst⟩
    exact ⟨hd, fun k hk => hfirst k (Nat.zero_le k) hk⟩
  · rintro ⟨hd, hfirst⟩
    have := le_length_of_declaredLength_drop hd
    exact ⟨Nat.zero_le i, by omega, hd, fun k _ hk => hfirst k hk⟩

/-! ### What `FIND` leaves -/

/-- Settles O29: the index found is the one `find` returns, and its length byte is counted, so it is
the byte of `RXBUF` at that index. -/
theorem findOperation : Obligations.FindOperation := by
  refine ⟨rfl, rfl, fun s => ?_⟩
  rw [← slice_zero]
  refine ⟨fun i hok hfirst => ?_, fun hfail => ?_⟩
  · have hfound := ((findIsTheSmallestIndex s.rxBytes).1 i _).2 ⟨rfl, hok, hfirst⟩
    have hlen := le_length_of_declaredLength_drop ((findFrame_eq_some _ _ _).1 hfound).1
    rw [State.rxBytes, length_slice] at hlen
    have hbyte : byteAt s.rxBytes (i + 4) = s.readByte .rxbuf (i + 4) := by
      rw [State.rxBytes, byteAt_slice _ _ _ _ _ (by omega), Nat.zero_add]
    rw [hbyte] at hfound
    exact execFind_of_some s i _ hfound
  · exact execFind_of_none s ((findIsTheSmallestIndex s.rxBytes).2.2 hfail)

/-- `decode` accepts the counted bytes from `OFF` on, with `FLEN` for the length byte: what a `FIND`
that succeeds leaves (R153). -/
def FrameLocated (s : State) : Prop := declaredLength s.rxFromOff = some s.flen

/-- A `FIND` that succeeds locates a frame in the counted bytes, whose number it keeps. -/
theorem frameLocated_of_find {s t : State} (he : exec .find s = .next t)
    (hok : t.status.ok = true) : FrameLocated t ∧ t.rxlen = s.rxlen := by
  cases (exec_eq_next_iff rfl).1 he with
  | findSome i n hf =>
    refine ⟨?_, rfl⟩
    rw [FrameLocated, rxFromOff_eq]
    exact ((findFrame_eq_some _ _ _).1 hf).1
  | findNone hf => cases hok

/-- The counted bytes from `OFF` on are read from `RXBUF` (R138). -/
theorem byteAt_rxFromOff (s : State) {k : Nat} (hk : s.off + k < s.rxlen) :
    byteAt s.rxFromOff k = s.readByte .rxbuf (s.off + k) :=
  byteAt_slice s .rxbuf s.off _ k (by omega)

/-- What `decode` gives for a frame located. -/
theorem FrameLocated.decodeFrame_eq_ok {s : State} (h : FrameLocated s) :
    ∃ p, decodeFrame s.rxFromOff = .ok (s.readByte .rxbuf (s.off + 3)) s.flen p := by
  obtain ⟨cmd, p, hd⟩ := (declaredLength_eq_some _ _).1 h
  obtain ⟨-, -, -, -, hfits, -, hcmd, -, -⟩ := (decodeFrame_ok_iff _ _ _ _).1 hd
  rw [State.rxFromOff, length_slice] at hfits
  rw [byteAt_rxFromOff s (by omega)] at hcmd
  exact ⟨p, hcmd ▸ hd⟩

/-- A frame located lies whole inside the counted bytes (R90, R154). -/
theorem FrameLocated.wholeFrame {s : State} (h : FrameLocated s) :
    s.off + 6 + s.flen.toNat ≤ s.rxlen ∧
    s.readByte .rxbuf s.off = 0x57#8 ∧ s.readByte .rxbuf (s.off + 1) = 0xAB#8 ∧
    s.readByte .rxbuf (s.off + 2) = 0x00#8 ∧ s.readByte .rxbuf (s.off + 4) = s.flen ∧
    s.readByte .rxbuf (s.off + 5 + s.flen.toNat) =
      checksum (s.slice .rxbuf s.off (5 + s.flen.toNat)) := by
  obtain ⟨p, hd⟩ := h.decodeFrame_eq_ok
  obtain ⟨-, h0, h1, h2, hfits, hsum, -, hn, -⟩ := (decodeFrame_ok_iff _ _ _ _).1 hd
  rw [← hn] at hfits hsum
  rw [State.rxFromOff, length_slice] at hfits
  rw [byteAt_rxFromOff s (by omega)] at h0 h1 h2 hn hsum
  rw [State.rxFromOff, take_slice, min_eq_left (by omega)] at hsum
  exact ⟨by omega, h0, h1, h2, hn.symm, by rw [hsum, Nat.add_assoc]⟩

/-- The checksum of a slice, byte by byte as numbers (R120). -/
theorem checksum_slice (s : State) (sp : Space) (i n : Nat) :
    checksum (s.slice sp i n) =
      BitVec.ofNat 8 ((List.range n).map fun k => (s.readByte sp (i + k)).toNat).sum := by
  rw [checksum, State.slice, List.map_map]
  rfl

/-- Settles O30: the bytes of the frame located. -/
theorem findLocatesAWholeFrame : Obligations.FindLocatesAWholeFrame := by
  intro s t he hok
  obtain ⟨hlocated, hrxlen⟩ := frameLocated_of_find he hok
  rw [← checksum_slice, ← hrxlen]
  exact hlocated.wholeFrame

/-! ### The frame stays located -/

@[simp] theorem pushBytes_off (s : State) (bs : List Byte) : (s.pushBytes bs).off = s.off := by
  rw [pushBytes_eq]

@[simp] theorem pushBytes_flen (s : State) (bs : List Byte) : (s.pushBytes bs).flen = s.flen := by
  rw [pushBytes_eq]

@[simp] theorem pushBytes_pending (s : State) (bs : List Byte) :
    (s.pushBytes bs).pending = s.pending := by
  rw [pushBytes_eq]

/-- Appends put bytes behind the counted ones, as many as there is room for (R65). -/
theorem rxBytes_isPrefix_pushBytes (s : State) (bs : List Byte) :
    s.rxBytes <+: (s.pushBytes bs).rxBytes := by
  obtain ⟨k, hk⟩ : ∃ k, (s.pushBytes bs).rxlen = s.rxlen + k := ⟨_, by rw [pushBytes_eq]⟩
  rw [State.rxBytes, State.rxBytes, hk, slice_append,
    pushBytes_slice_of_le s bs 0 s.rxlen (by omega)]
  exact ⟨_, rfl⟩

/-- `decode` gives a longer sequence the declared length it gave a shorter one (R136). -/
theorem declaredLength_of_isPrefix {a b : List Byte} {n : Byte} (hab : a <+: b)
    (ha : declaredLength a = some n) : declaredLength b = some n := by
  obtain ⟨tail, rfl⟩ := hab
  obtain ⟨cmd, p, hd⟩ := (declaredLength_eq_some _ _).1 ha
  exact (declaredLength_eq_some _ _).2
    ⟨cmd, p, (decodeIgnoresBytesAfterTheFrame a tail cmd n p hd).trans hd⟩

section
variable {s t : State} (h : FrameLocated s)
include h

/-- Appends leave the frame where it is. -/
theorem frameLocated_pushBytes (bs : List Byte) : FrameLocated (s.pushBytes bs) := by
  rw [FrameLocated, rxFromOff_eq] at h ⊢
  rw [pushBytes_off, pushBytes_flen]
  exact declaredLength_of_isPrefix ((rxBytes_isPrefix_pushBytes s bs).drop s.off) h

/-- Every operation but `CLR` leaves a frame located: `FIND` the one it finds, the others the one
there was. -/
theorem frameLocated_opEffect {i : Instr} (he : OpEffect s i t) (hclr : i ≠ .clr) :
    FrameLocated t := by
  cases he with
  | clr => exact absurd rfl hclr
  | findSome i n hf => exact (frameLocated_of_find (execFind_of_some s i n hf) rfl).1
  | cksum | encode | decodeOk | decodeFail | findNone | tohost | towire | reserved => exact h

/-- Every host access but a write to `OFF` and reset leaves the frame where it is: the host may
write neither `RXBUF` nor `FLEN` (R23, R64). -/
theorem frameLocated_accessEffect {e : HostEvent} (he : AccessEffect s e t)
    (hoff : ∀ v, e ≠ .wrReg 0x02 v) (hreset : e ≠ .reset) : FrameLocated t := by
  cases he with
  | rdReg | memRead | wrInert | storeIgnored | wrEncCmd | wrEncLen => exact h
  | wrOff v => exact absurd rfl (hoff v)
  | push v => exact frameLocated_pushBytes h [BitVec.ofNat 8 v]
  | store sp i v hi hw =>
    cases sp with
    | encPay | cfgRec => exact h
    | rxbuf | txbuf | decPay => cases hw
  | reset => exact absurd rfl hreset

end

/-! ### Runs between `FIND` and `DECODE` -/

theorem OpEffect.pending_eq {s t : State} {i : Instr} (h : OpEffect s i t) :
    t.pending = s.pending := by
  cases h <;> rfl

theorem AccessEffect.pending_eq {s t : State} {e : HostEvent} (h : AccessEffect s e t) :
    t.pending = s.pending := by
  cases h with
  | push v => exact pushBytes_pending s [BitVec.ofNat 8 v]
  | store => exact setArray_pending _ _ _
  | rdReg | memRead | wrInert | wrOff | wrEncCmd | wrEncLen | storeIgnored | reset => rfl

/-- A turn of the host that R155 allows between `FIND` and `DECODE`: no reset, no write to `OFF`, no
`CLR`. -/
def LeavesFrame (x : Input) : Prop :=
  x ≠ .event .reset ∧ (∀ v, x ≠ .event (.wrReg 0x02 v)) ∧
    ∀ v, x = .event (.wrReg 0x00 v) → decodeOp (BitVec.ofNat 8 v) ≠ .clr

/-- A frame is located, and the host has only turns left that R155 allows. -/
structure AwaitsDecode (s : State) : Prop where
  located : FrameLocated s
  turns : ∀ x ∈ s.pending, LeavesFrame x

/-- Every step keeps it: a turn is taken, and it leaves a frame located. -/
theorem awaitsDecode_step {s t : State} (h : AwaitsDecode s) (hstep : step s = .next t) :
    AwaitsDecode t := by
  have htaken : ∀ rest, FrameLocated { s with pending := rest } := fun _ => h.located
  have hturns : ∀ x rest, s.pending = x :: rest →
      LeavesFrame x ∧ ∀ y ∈ rest, LeavesFrame y := fun x rest hp => by
    simpa [hp] using h.turns
  rcases step_cases s t hstep with
    ⟨-, rfl⟩ | ⟨v, rest, hp, he⟩ | ⟨e, rest, hp, -, he⟩ | ⟨bytes, rest, hp, rfl⟩
  · exact h
  · obtain ⟨⟨-, -, hclr⟩, hrest⟩ := hturns _ _ hp
    have heff := (exec_eq_next_iff (format_decodeOp _)).1 he
    exact ⟨frameLocated_opEffect (htaken rest) heff (hclr v rfl), heff.pending_eq ▸ hrest⟩
  · obtain ⟨⟨hreset, hoff, -⟩, hrest⟩ := hturns _ _ hp
    have heff := accessEffect_of_hostAccess he
    refine ⟨frameLocated_accessEffect (htaken rest) heff (fun v hv => ?_) (fun hv => ?_),
      heff.pending_eq ▸ hrest⟩
    · exact hoff v (congrArg Input.event hv)
    · exact hreset (congrArg Input.event hv)
  · obtain ⟨-, hrest⟩ := hturns _ _ hp
    exact ⟨frameLocated_pushBytes (htaken rest) bytes, (pushBytes_pending _ bytes).symm ▸ hrest⟩

/-- What every step keeps holds after a run. -/
theorem run_keeps {P : State → Prop} (hstep : ∀ s t, P s → step s = .next t → P t) {k : Nat}
    {s u : State} (h : P s) (hrun : Host.Core.run Sys2Proof.core k s = .next u) : P u := by
  induction k generalizing s with
  | zero => exact Host.Outcome.next.inj hrun ▸ h
  | succ k ih =>
    cases hs : step s with
    | next t => exact ih (hstep s t h hs) (run_succ_of_next k s t hs ▸ hrun)
    | fault r => cases r
    | refused r =>
      have hs' : Sys2Proof.core.step s = .refused r := hs
      simp [Host.Core.run, hs'] at hrun

/-- Settles O33: `FIND` leaves a frame located, the run keeps one located, and the last state's
`DECODE` accepts it. -/
theorem findThenDecodeSucceeds : Obligations.FindThenDecodeSucceeds := by
  intro s t u between he hok hturns hrun
  have hstart : AwaitsDecode { t with pending := between } :=
    ⟨(frameLocated_of_find he hok).1, hturns⟩
  have hend := run_keeps (fun _ _ => awaitsDecode_step) hstart hrun
  obtain ⟨p, hd⟩ := hend.located.decodeFrame_eq_ok
  exact ⟨_, execDecode_of_ok u _ _ p hd, rfl, rfl, rfl⟩

end Sys2Proof.Proofs

/-! # Proofs: the endianness converter

A conversion reads `REC` through `swapIndex`, which undoes itself and reverses each of the four
fields (43_transcoder.md). -/

namespace Sys2Proof.Proofs

open Sys2Proof.Machine Sys2Proof.Laws

/-! ### The conversion undoes itself -/

/-- `swapIndex` undoes itself at every offset: past the record it moves nothing. -/
theorem swapIndex_involutive : Function.Involutive swapIndex := by
  intro k
  by_cases h : k < 50
  · exact swapIndex_swapIndex k h
  · have hk : swapIndex k = k := swapIndex_of_not_mem k fun hmem =>
      h ((show ∀ k ∈ swappedOffsets, k < 50 by decide) k hmem)
    rw [hk, hk]

@[simp] theorem length_swapRecord (r : List Byte) : (swapRecord r).length = 50 := by
  simp [swapRecord, Config.recSize]

/-- Sequences of one length that agree byte by byte are equal. -/
theorem eq_of_byteAt_eq {a b : List Byte} (hlen : a.length = b.length)
    (h : ∀ k < a.length, byteAt a k = byteAt b k) : a = b := by
  refine List.ext_getElem hlen fun k ha hb => ?_
  simpa [byteAt, ha, hb] using h k ha

/-- `swap` undoes itself on a record (R172). -/
theorem swapRecord_swapRecord {r : List Byte} (h : r.length = 50) :
    swapRecord (swapRecord r) = r := by
  refine eq_of_byteAt_eq (by simp [h]) fun k hk => ?_
  rw [length_swapRecord] at hk
  rw [byteAt_swapRecord _ k hk, byteAt_swapRecord _ _ (swapIndex_lt k hk), swapIndex_involutive k]

/-- Both operations leave the converted state (R174). -/
theorem eq_convertRec_of_exec {s t : State}
    (h : exec .tohost s = .next t ∨ exec .towire s = .next t) : t = s.convertRec := by
  rcases h with h | h <;> cases (exec_eq_next_iff rfl).1 h <;> rfl

/-- Settles O34: each byte of `REC` is read through `swapIndex`, which moves ten offsets alone. -/
theorem converterOperations : Obligations.ConverterOperations := by
  refine ⟨rfl, rfl, fun s => ?_⟩
  have hread := convertRec_readByte s
  refine ⟨s.convertRec, OpEffect.tohost.exec_eq, OpEffect.towire.exec_eq, rfl, hread 3, hread 4,
    hread 5, hread 6, hread 9, hread 10, hread 15, hread 16, hread 17, hread 18, fun k hk => ?_⟩
  rw [hread k, swapIndex_of_not_mem k hk]

/-- Settles O35: `swapIndex` undoes itself, in a record and in `REC`. -/
theorem conversionIsAnInvolution : Obligations.ConversionIsAnInvolution := by
  refine ⟨fun r => swapRecord_swapRecord, fun s t u hst htu k => ?_⟩
  rw [eq_convertRec_of_exec htu, convertRec_readByte, eq_convertRec_of_exec hst,
    convertRec_readByte, swapIndex_involutive k]

/-! ### The numbers in the fields -/

theorem leValue_append (a b : List Byte) :
    leValue (a ++ b) = leValue a + 256 ^ a.length * leValue b := by
  induction a with
  | nil => simp [leValue]
  | cons x a ih =>
    rw [List.cons_append, leValue, leValue, ih, List.length_cons, pow_succ]
    ring

/-- The two byte orders read the same number from bytes in opposite order (R68, R69). -/
theorem leValue_reverse (b : List Byte) : leValue b.reverse = beValue b := by
  induction b with
  | nil => rfl
  | cons x b ih =>
    rw [List.reverse_cons, leValue_append, ih, List.length_reverse, beValue, leValue, leValue]
    ring

theorem beValue_reverse (b : List Byte) : beValue b.reverse = leValue b := by
  rw [← leValue_reverse, List.reverse_reverse]

/-- A conversion reverses a field whose offsets `swapIndex` reverses. -/
theorem slice_convertRec (s : State) {k n : Nat}
    (h : ∀ j < n, swapIndex (k + j) = k + (n - 1 - j)) :
    s.convertRec.slice .cfgRec k n = (s.slice .cfgRec k n).reverse := by
  refine List.ext_getElem (by simp) fun j hj _ => ?_
  rw [length_slice] at hj
  simp [State.slice, convertRec_readByte, h j hj]

/-- A field that a conversion reverses keeps its number in the other byte order. -/
theorem value_convertRec (s : State) {k n : Nat}
    (h : ∀ j < n, swapIndex (k + j) = k + (n - 1 - j)) :
    leValue (s.convertRec.slice .cfgRec k n) = beValue (s.slice .cfgRec k n) ∧
      beValue (s.convertRec.slice .cfgRec k n) = leValue (s.slice .cfgRec k n) := by
  rw [slice_convertRec s h]
  exact ⟨leValue_reverse _, beValue_reverse _⟩

/-- Settles O36: `swapIndex` reverses the offsets of each of the four fields. -/
theorem conversionKeepsTheNumbers : Obligations.ConversionKeepsTheNumbers := by
  intro s t h
  rw [eq_convertRec_of_exec h]
  refine ⟨value_convertRec s (by decide), ?_⟩
  rintro k (rfl | rfl | rfl) <;> exact value_convertRec s (by decide)

end Sys2Proof.Proofs

/-! # Proofs: `CLR` and the reserved codes (44_control_ops.md) -/

namespace Sys2Proof.Proofs

open Sys2Proof.Machine Sys2Proof.Laws

/-- Settles O15: the one way `CLR` ends leaves the state stated. -/
theorem clrOperation : Obligations.ClrOperation :=
  ⟨rfl, fun _ => OpEffect.clr.exec_eq⟩

/-- A byte from 0x07 on selects its own reserved code (R112). -/
theorem decodeOp_ofNat_of_reserved {v : Nat} (hlo : 0x07 ≤ v) (hhi : v ≤ 0xFF) :
    decodeOp (BitVec.ofNat 8 v) = .reservedOp (BitVec.ofNat 8 v) := by
  have hv : (BitVec.ofNat 8 v).toNat = v := Nat.mod_eq_of_lt (Nat.lt_succ_of_le hhi)
  exact decodeOp_of_ge (hlo.trans_eq hv.symm)

/-- Settles O16: a reserved code raises `ILLOP` in every state, so also in the one the step runs it
in. -/
theorem reservedCodesReportIllop : Obligations.ReservedCodesReportIllop := by
  have hraise (code : Byte) (s : State) : exec (.reservedOp code) s = .next (s.raise .illop) :=
    (OpEffect.reserved code).exec_eq
  refine ⟨rfl, hraise, fun s v rest hp hlo hhi => ?_⟩
  rw [step_op s v rest hp, decodeOp_ofNat_of_reserved hlo hhi]
  exact hraise _ _

end Sys2Proof.Proofs

/-! # Proofs: exceptions (60_exceptions.md) -/

namespace Sys2Proof.Proofs

open Sys2Proof.Machine Sys2Proof.Laws

/-- The reasons an operation can fail for (R200, R203). -/
def failReasons : Instr → List ErrCode
  | .decode => [.short, .head, .addr, .trunc, .sum]
  | .find => [.notfound]
  | .reservedOp _ => [.illop]
  | _ => []

/-- No operation fails without a reason. -/
theorem none_notMem_failReasons (i : Instr) : ErrCode.none ∉ failReasons i := by
  unfold failReasons
  split <;> decide

/-- Every reason `decode` fails for is one of `DECODE`'s. -/
theorem ofFail_mem_failReasons (r : FailReason) : ErrCode.ofFail r ∈ failReasons .decode := by
  cases r <;> decide

/-- An operation either succeeds with `ERR` 0 or does nothing but raise one of its own reasons. -/
theorem OpEffect.succeeds_or_raises {s t : State} {i : Instr} (h : OpEffect s i t) :
    (t.status.ok = true ∧ t.status.err = .none) ∨ ∃ e ∈ failReasons i, t = s.raise e := by
  cases h with
  | decodeFail r hd => exact .inr ⟨_, ofFail_mem_failReasons r, rfl⟩
  | findNone hf => exact .inr ⟨.notfound, .head _, rfl⟩
  | reserved code => exact .inr ⟨.illop, .head _, rfl⟩
  | clr | cksum | encode | decodeOk | findSome | tohost | towire => exact .inl ⟨rfl, rfl⟩

/-- Settles O39: an operation that ends with `OK` 0 did nothing but raise a reason. -/
theorem failedOperationsChangeOnlyStatus : Obligations.FailedOperationsChangeOnlyStatus := by
  intro i s t hf he hok
  rcases ((exec_eq_next_iff hf).1 he).succeeds_or_raises with ⟨hok', -⟩ | ⟨e, hmem, rfl⟩
  · simp [hok] at hok'
  · exact ⟨ne_of_mem_of_not_mem hmem (none_notMem_failReasons i), rfl⟩

/-- Settles O40: a success has `ERR` 0, and a failure has one of the reasons its operation is listed
with. -/
theorem eachReasonHasItsOperation : Obligations.EachReasonHasItsOperation := by
  intro i s t hf he
  rcases ((exec_eq_next_iff hf).1 he).succeeds_or_raises with ⟨hok, herr⟩ | ⟨e, hmem, rfl⟩
  · simp [hok, herr]
  · rw [raise_status, failed_err]
    cases i with
    | decode =>
      have hnotfound : e ≠ .notfound := ne_of_mem_of_not_mem hmem (by decide)
      have hillop : e ≠ .illop := ne_of_mem_of_not_mem hmem (by decide)
      simp [hnotfound, hillop]
    | find | reservedOp =>
      obtain rfl := List.mem_singleton.1 hmem
      simp
    | _ => cases hmem

end Sys2Proof.Proofs

/-! # Proofs: reset (70_reset_and_hazards.md) -/

namespace Sys2Proof.Proofs

open Sys2Proof.Machine Sys2Proof.Laws

/-- A step whose turn is the `Reset` event (R230). -/
theorem step_reset {s : State} {rest : List Input} (hp : s.pending = .event .reset :: rest) :
    step s = .next { s with pending := rest }.afterReset :=
  step_of_accessEffect hp nofun .reset

/-- The registers after the event read as in the reset state (R231). -/
theorem afterReset_readReg (s : State) (n : Nat) :
    s.afterReset.readReg n = State.reset.readReg n := rfl

/-- What the event leaves depends on the parameter and the model's own fields alone (R232). -/
theorem afterReset_congr {s s' : State} (hcap : s'.bufCap = s.bufCap) (hdraw : s'.draw = s.draw)
    (hpending : s'.pending = s.pending) (hreplies : s'.replies = s.replies) :
    s'.afterReset = s.afterReset := by
  rw [State.afterReset, State.afterReset, hcap, hdraw, hpending, hreplies]

/-- Settles O49: the state after the event reads as the reset state, with a new draw of free
values. -/
theorem resetEvent : Obligations.ResetEvent := by
  intro s rest hp
  refine ⟨_, step_reset hp, fun n hn => ?_, afterReset_readByte _, rfl, rfl, rfl⟩
  rw [afterReset_readReg]
  exact resetValues.1 n hn

/-- Settles O50: both steps are the `Reset` event, which reads only the fields assumed equal. -/
theorem nothingSurvivesReset : Obligations.NothingSurvivesReset := by
  intro s s' rest hp hp' hcap hdraw hreplies
  rw [step_reset hp, step_reset hp']
  exact congrArg Host.Outcome.next (afterReset_congr hcap hdraw rfl hreplies)

/-- With nothing received `find` has no bytes to look at (R152). -/
theorem findFrame_rxBytes_of_rxlen_eq_zero {s : State} (h : s.rxlen = 0) :
    findFrame s.rxBytes = none :=
  if_pos (by rw [State.rxBytes, length_slice, h]; decide)

/-- With nothing received `decode` fails its first check, wherever `OFF` points (R139). -/
theorem decodeFrame_rxFromOff_of_rxlen_eq_zero {s : State} (h : s.rxlen = 0) :
    decodeFrame s.rxFromOff = .fail .short :=
  if_pos (by rw [State.rxFromOff, length_slice, h, Nat.zero_sub]; decide)

/-- The frame of command 0 with no payload. -/
theorem encodeFrame_zero_nil :
    encodeFrame 0x00#8 [] = [0x57#8, 0xAB#8, 0x00#8, 0x00#8, 0x00#8, 0x02#8] := by decide

/-- Settles O51: `FIND` and `DECODE` meet an empty receive buffer, `ENCODE` an empty payload, and
each operation leaves what its effect says. -/
theorem operationsFromReset : Obligations.OperationsFromReset := by
  intro cap s
  have hrx : s.rxlen = 0 := rfl
  have hframe : encodeFrame s.encCmd s.encPayload = _ := encodeFrame_zero_nil
  refine ⟨(OpEffect.findNone (findFrame_rxBytes_of_rxlen_eq_zero hrx)).exec_eq,
    (OpEffect.decodeFail .short (decodeFrame_rxFromOff_of_rxlen_eq_zero hrx)).exec_eq,
    OpEffect.cksum.exec_eq, OpEffect.clr.exec_eq, ?_,
    ⟨_, OpEffect.tohost.exec_eq⟩, ⟨_, OpEffect.towire.exec_eq⟩⟩
  rw [OpEffect.encode.exec_eq, hframe]
  rfl

end Sys2Proof.Proofs
